-- ==== Sys2Proof/Word.lean ====
section
/-! DEFINITION. The machine's words (`00_scope.md` R4, R5; `30_encoding.md` R50). Everything the block computes is
computed over `Nat` and `Int` (R5: exact arithmetic over ℤ); a word is what a register holds. -/

namespace Sys2Proof

/-- An Integer of the document, a `u64` (R5, R11): what an operand register and `CMD` hold. `XLEN = 64` (R4). -/
abbrev Word := BitVec 64

/-- A command word (R50). `CMDW = 32` (R4). -/
abbrev CommandWord := BitVec 32

/-- A character code point, `0 .. 255`, unsigned (R4 `CHARW`, R131). -/
abbrev Char8 := BitVec 8

end Sys2Proof
end

