-- ==== Sys2Proof/Syntax.lean ====
section
/-! DEFINITION. The command set (`30_encoding.md`), its raw fields, and the events at the block's host interface
(`20_memory.md`, `70_reset_and_hazards.md`). -/

namespace Sys2Proof

/-- The number of an operand register `x0 .. x7` (R11, R51): all eight are legal in every field a format uses. -/
abbrev Reg := Fin 8

/-- The six commands (R53), one constructor per row of the opcode table, with the register fields its format uses (R52)
in the order of the assembler line (R59): destination first, then `rs1 .. rs4`. -/
inductive Instr where
  /-- R72: `x[rd] <- (x[rs1]·x[rs2]) mod x[rs3]`. -/
  | modmul (rd rs1 rs2 rs3 : Reg)
  /-- R82: `x[rd] <- x[rs1]^x[rs2] mod x[rs3]`. -/
  | modexp (rd rs1 rs2 rs3 : Reg)
  /-- R92: `x[rd] <- gcd(x[rs1], x[rs2])`. -/
  | gcd (rd rs1 rs2 : Reg)
  /-- R96: `x[rd] <-` the inverse of `x[rs1]` modulo `x[rs2]`. -/
  | modinv (rd rs1 rs2 : Reg)
  /-- R112: `x[rd] <- 1` if `x[rs1]` passes `ROUNDS.N` Fermat rounds, else 0. -/
  | isprime (rd rs1 : Reg)
  /-- R127: CRT decryption of residue `x[rs1]` under `(d, p, q) = (x[rs2], x[rs3], x[rs4])`. -/
  | crtdec (rd rs1 rs2 rs3 rs4 : Reg)
deriving DecidableEq, Repr

/-- The fields of a value written to `CMD`: `CMD.HI` (R15) and the layout of the command word (R50). -/
structure Fields where
  hi     : BitVec 32
  zero   : BitVec 9
  rs4    : BitVec 3
  rs3    : BitVec 3
  rs2    : BitVec 3
  rs1    : BitVec 3
  rd     : BitVec 3
  opcode : BitVec 8
deriving DecidableEq, Repr

/-- Why a value written to `CMD` is illegal: the four tests of R55, in its order. All four give the same fault. -/
inductive Illegal where
  /-- Test 1: `v[63:32] ≠ 0`. -/
  | highHalf
  /-- Test 2: `v[31:23] ≠ 0`. -/
  | zeroField
  /-- Test 3: no command has this opcode (R56). -/
  | reservedOpcode
  /-- Test 4: a field the format does not use is not 0 (R52). -/
  | unusedField
deriving DecidableEq, Repr

/-- What a transaction addresses: `width` bits beginning `offset` bits above the low end of register `index`. Only
`offset = 0`, `width = 64` covers exactly one register (R35 (c), R36; log 12). -/
structure Access where
  index  : Nat
  offset : Nat
  width  : Nat
deriving DecidableEq, Repr

/-- The access to one whole register (R36), the only shape that R31 and R32 give a meaning. -/
def Access.whole (k : Nat) : Access := { index := k, offset := 0, width := 64 }

/-- The two host transactions (R31, R32). -/
inductive Transaction where
  | read (a : Access)
  | write (a : Access) (v : Word)
deriving DecidableEq, Repr

/-- `HostRead(k)` (R31). -/
abbrev Transaction.hostRead (k : Nat) : Transaction := .read (.whole k)

/-- `HostWrite(k, v)` (R32). -/
abbrev Transaction.hostWrite (k : Nat) (v : Word) : Transaction := .write (.whole k) v

/-- What reaches the block from outside, other than the answers of the random source. -/
inductive Event where
  /-- One transaction of the one host (R8, R42). -/
  | transaction (t : Transaction)
  /-- The platform asserts reset between two transactions (R190, R191). -/
  | reset
  /-- The host writes `v` to `CMD` and the platform asserts reset while that command is in progress, after it has made
  `made` draws, or all of them if it makes fewer (R191). -/
  | resetDuring (v : Word) (made : Nat)
  /-- Two hosts issue transactions at the same time (R42, V7). -/
  | concurrent (t u : Transaction)
deriving DecidableEq, Repr

end Sys2Proof
end

