-- ==== Sys2Proof/Decode.lean ====
section
/-! DEFINITION. The decoder, total on every 64-bit value and rejecting by name (R55, R58), and the encoder (R50, R59). -/

namespace Sys2Proof

/-- Cut a value written to `CMD` into its fields (R15, R50). -/
def splitFields (v : Word) : Fields :=
  { hi     := v.extractLsb' 32 32
    zero   := v.extractLsb' 23 9
    rs4    := v.extractLsb' 20 3
    rs3    := v.extractLsb' 17 3
    rs2    := v.extractLsb' 14 3
    rs1    := v.extractLsb' 11 3
    rd     := v.extractLsb' 8 3
    opcode := v.extractLsb' 0 8 }

/-- A 3-bit field names `x0 .. x7` by its unsigned value (R51). -/
def regOfBits (b : BitVec 3) : Reg := b.toFin

/-- Test 4 of R55: the fields that the format does not use are 0. -/
def requireZero (unusedAreZero : Bool) (i : Instr) : Except Illegal Instr :=
  if unusedAreZero then .ok i else .error .unusedField

/-- The opcode map (R53) on cut fields, with the formats of R52. -/
def decodeOpcode (f : Fields) : Except Illegal Instr :=
  if f.opcode = 0x01 then
    requireZero (f.rs4 == 0) (.modmul (regOfBits f.rd) (regOfBits f.rs1) (regOfBits f.rs2) (regOfBits f.rs3))
  else if f.opcode = 0x02 then
    requireZero (f.rs4 == 0) (.modexp (regOfBits f.rd) (regOfBits f.rs1) (regOfBits f.rs2) (regOfBits f.rs3))
  else if f.opcode = 0x03 then
    requireZero (f.rs3 == 0 && f.rs4 == 0) (.gcd (regOfBits f.rd) (regOfBits f.rs1) (regOfBits f.rs2))
  else if f.opcode = 0x04 then
    requireZero (f.rs3 == 0 && f.rs4 == 0) (.modinv (regOfBits f.rd) (regOfBits f.rs1) (regOfBits f.rs2))
  else if f.opcode = 0x05 then
    requireZero (f.rs2 == 0 && f.rs3 == 0 && f.rs4 == 0) (.isprime (regOfBits f.rd) (regOfBits f.rs1))
  else if f.opcode = 0x06 then
    .ok (.crtdec (regOfBits f.rd) (regOfBits f.rs1) (regOfBits f.rs2) (regOfBits f.rs3) (regOfBits f.rs4))
  else .error .reservedOpcode

/-- Decoding of a value written to `CMD`, the tests in the order of R55. -/
def decodeFields (f : Fields) : Except Illegal Instr :=
  if f.hi ≠ 0 then .error .highHalf
  else if f.zero ≠ 0 then .error .zeroField
  else decodeOpcode f

/-- The decoder (R55, R57 step 2, R58). -/
def decode (v : Word) : Except Illegal Instr := decodeFields (splitFields v)

/-- The bits of a register number (R51). -/
def bitsOfReg (r : Reg) : BitVec 3 := BitVec.ofFin r

/-- The command word with these fields, the layout of R50, most significant field first. -/
def assembleWord (rs4 rs3 rs2 rs1 rd : Reg) (opcode : BitVec 8) : CommandWord :=
  (0 : BitVec 9) ++ bitsOfReg rs4 ++ bitsOfReg rs3 ++ bitsOfReg rs2 ++ bitsOfReg rs1 ++ bitsOfReg rd ++ opcode

/-- The encoder: the word of a command (R53, R59), unused fields 0. -/
def encode : Instr → CommandWord
  | .modmul rd rs1 rs2 rs3     => assembleWord 0 rs3 rs2 rs1 rd 0x01
  | .modexp rd rs1 rs2 rs3     => assembleWord 0 rs3 rs2 rs1 rd 0x02
  | .gcd rd rs1 rs2            => assembleWord 0 0 rs2 rs1 rd 0x03
  | .modinv rd rs1 rs2         => assembleWord 0 0 rs2 rs1 rd 0x04
  | .isprime rd rs1            => assembleWord 0 0 0 rs1 rd 0x05
  | .crtdec rd rs1 rs2 rs3 rs4 => assembleWord rs4 rs3 rs2 rs1 rd 0x06

/-- The 64-bit value that delivers a command word (R50): `CMD.HI` is 0. -/
def commandValue (i : Instr) : Word := (encode i).setWidth 64

/-- The value whose low `nbits` bits are those of `w`, every higher bit 0. A command is one 32-bit word (R50) and no byte order
exists (R39), so bit `k` of the table is bit `k` of `CMD`. -/
def tableWordValue (nbits w : Nat) : Word := BitVec.ofNat 64 (w % 2 ^ nbits)

/-- What the decoder reads from an instruction of the opcode table. -/
def decodeTableWord (nbits w : Nat) : Option Instr :=
  match decode (tableWordValue nbits w) with
  | .ok i    => some i
  | .error _ => none

end Sys2Proof
end

