-- ==== Sys2Proof/Config.lean ====
section
/-! DEFINITION. What the implementation fixes and what the spec leaves open (`00_scope.md` R4).
`XLEN`, `CMDW`, `CHARW` and `ROUNDSW` are the widths of the types in Word.lean and State.lean; `NREG = 8` is `Reg` in
Syntax.lean. `WLEN` (at least 128, not observable) is unbounded here (log 10), `BASE` is a free argument that no rule reads (log 9). -/

namespace Sys2Proof.Config

/-- `ROUNDS_RESET` (R4, R17): "Default round count: 5". -/
def roundsReset : BitVec 32 := 5

/-- The most iterations MODEXP's loop makes (R86, R199): one per bit of a `u64` exponent. -/
def modexpIterations : Nat := 64

/-- The most iterations the Euclidean loops of GCD and MODINV make (R199). -/
def euclidIterations : Nat := 130

/-- `MIN_SEPARATION` (R4), host side only. -/
def minSeparation : Nat := 1000

/-- `RandomSource` (R4 OPEN, E1, E4): the answer to the `k`-th `Draw` that no scripted answer covers. A FREE VALUE: it has no
body, so nothing can be proved of it, and whatever is proved holds for every generator (R40, D20; log 2). -/
opaque freeAnswer : Nat → Word

/-- What `BASE` stands for (R4, R34, D7): where the platform places the block's registers on its bus. -/
structure BusPlacement where
  /-- The bus address of register index 0. -/
  base     : Nat
  /-- Addresses from one register index to the next. -/
  stride   : Nat
  /-- Bits that one address counts: 8 on a bus that counts bytes, 64 on one that counts words. -/
  unitBits : Nat
deriving DecidableEq, Repr, Inhabited

/-- `BASE` (R4 OPEN, P1), the platform's. A FREE VALUE: it has no body, and no rule depends on it (log 9). -/
opaque base : BusPlacement

end Sys2Proof.Config
end

