-- ==== Sys2Proof/Machine/State.lean ====
section
/-! DEFINITION. The state: the block's twelve registers (`10_state.md` R10), and, as plain data of the model's own (log 1, log 2),
the environment at its two interfaces (R30). There is no other state of the block (R10, R20). -/

namespace Sys2Proof.Machine

/-- The complete architectural state of the block (R10). Hard-wired zero bits (`STATUS[63:8]`, `ROUNDS[63:32]`, `CHAR[63:8]`,
R16 to R18) are not stored; the reads that show them extend with zeros. -/
structure Block where
  /-- `x0 .. x7` (R11, R12). -/
  x      : Vector Word 8
  /-- `CMD` (R15): the last value written, `HI` and `WORD`. -/
  cmd    : Word
  /-- `STATUS.ERR` (R16): the outcome of the most recent command. -/
  err    : BitVec 8
  /-- `ROUNDS.N` (R17). -/
  rounds : BitVec 32
  /-- `CHAR.C` (R18). -/
  char   : Char8
deriving DecidableEq, Repr

/-- What the random source does with one `Draw` (R40, E1, E3). -/
inductive Answer where
  /-- It answers with a value: any value at all (E1, E2). -/
  | value (v : Word)
  /-- It never answers (E3, the proviso of R199). -/
  | silence
deriving DecidableEq, Repr

/-- One request on the random-source port, with what came of it (R40, R117). -/
structure Draw where
  lo     : Word
  hi     : Word
  answer : Answer
deriving DecidableEq, Repr

/-- The random-source port as the model sees it (R40, R41; log 2). -/
structure RandomPort where
  /-- The coming answers, free inputs of the model; past their end answers come from `Config.freeAnswer`. -/
  script : List Answer
  /-- The requests made so far, oldest first. Not architectural (R21); never undone (R162 item 4, R191). -/
  draws  : List Draw
deriving DecidableEq, Repr

/-- How the block completes a transaction on the host interface. -/
inductive Reply where
  /-- A read's value (R31). -/
  | data (v : Word)
  /-- A write has completed, for `CMD` with the whole command (R33), fault or no fault (R162 item 5). -/
  | done
  /-- The error response of a refused transaction (R35): it carries no data, since none is defined. -/
  | error
deriving DecidableEq, Repr

/-- The host register interface as the model sees it (R8, R37; log 1). -/
structure HostPort where
  /-- Pending events in the order they take effect, oldest first. -/
  inbox   : List Event
  /-- The block's replies, one per completed transaction, oldest first. -/
  replies : List Reply
deriving DecidableEq, Repr

/-- The block and its environment. -/
structure State where
  block  : Block
  random : RandomPort
  host   : HostPort
deriving DecidableEq, Repr

/-- The block's architectural faults (R160). Each is an outcome of a command, reported in `STATUS.ERR`, after which the machine
goes on (R162, R166): a next state, never a stop. -/
inductive Cause where
  | degenerateModulus
  | modulusZero
  | notInvertible
  | operandRange
  | illegalCommand
  | witnessRange
deriving DecidableEq, Repr

/-- Why the machine stops with no next state. -/
inductive Fault where
  /-- Raised by ISPRIME when the random source never answers a `Draw`: the command, and with it the host's write, never
  completes (R199, E3 `stuck`). Safe: the model stops where the hardware waits for ever (log 3). -/
  | drawUnanswered
deriving DecidableEq, Repr

/-- Why the model gives an input no meaning. -/
inductive Refusal where
  /-- An instruction whose meaning is not written: raised by `exec` only, by no arm now. Safe. -/
  | notModelled (mnemonic : String)
  /-- Raised by the step on two hosts at once: "a model must refuse it" (R42, V7). Safe (log 5). -/
  | concurrentHosts
deriving DecidableEq, Repr

/-- The block after reset (R23). -/
def Block.reset : Block :=
  { x := Vector.replicate 8 0, cmd := 0, err := 0, rounds := Config.roundsReset, char := 0 }

/-- The machine right after reset (R23, R191): the block's registers at their reset values, nothing yet requested, answered or
pending at its interfaces (log 1, log 2). -/
def State.reset : State :=
  { block := .reset, random := { script := [], draws := [] }, host := { inbox := [], replies := [] } }

/-- The outcome of a command, a transaction or a step. -/
abbrev Outcome := Host.Outcome State Fault Refusal

end Sys2Proof.Machine
end

