-- ==== Sys2Proof/Machine/Operands.lean ====
section
/-! DEFINITION. Every operand form there is: whole 64-bit registers as unsigned integers (R54), the destination register (R13), and the
round count of ISPRIME (R17, R54). No immediates, no sign extension, no scaling. -/

namespace Sys2Proof

/-- The destination field of a command (R53). -/
def Instr.dest : Instr → Reg
  | .modmul rd _ _ _   => rd
  | .modexp rd _ _ _   => rd
  | .gcd rd _ _        => rd
  | .modinv rd _ _     => rd
  | .isprime rd _      => rd
  | .crtdec rd _ _ _ _ => rd

/-- The source registers a command's format uses (R52, R53), in order. -/
def Instr.sources : Instr → List Reg
  | .modmul _ rs1 rs2 rs3     => [rs1, rs2, rs3]
  | .modexp _ rs1 rs2 rs3     => [rs1, rs2, rs3]
  | .gcd _ rs1 rs2            => [rs1, rs2]
  | .modinv _ rs1 rs2         => [rs1, rs2]
  | .isprime _ rs1            => [rs1]
  | .crtdec _ rs1 rs2 rs3 rs4 => [rs1, rs2, rs3, rs4]

namespace Machine

/-- `x[r]` (R6, R13). -/
def State.reg (s : State) (r : Reg) : Word := s.block.x[r]

/-- A source operand: the register's value as an unsigned integer (R54). -/
def State.src (s : State) (r : Reg) : Nat := (s.reg r).toNat

/-- The round count of ISPRIME: `ROUNDS.N`, zero-extended (R54, R112). -/
def State.roundCount (s : State) : Nat := s.block.rounds.toNat

/-- `x[r] <- v` (R6). No register is hard-wired (R12). -/
def State.setReg (s : State) (r : Reg) (v : Word) : State :=
  { s with block := { s.block with x := s.block.x.set r v } }

end Machine
end Sys2Proof
end

