-- ==== Sys2Proof/Machine/Flags.lean ====
section
/-! DEFINITION. What a command leaves besides its result: `STATUS.ERR` (R16, R19, R160) and `CHAR` (R18). The block has no other
flag and no condition code (R19). -/

namespace Sys2Proof.Machine

/-- The code of a fault in `STATUS.ERR` (R160). -/
def Cause.code : Cause → BitVec 8
  | .degenerateModulus => 1
  | .modulusZero       => 2
  | .notInvertible     => 3
  | .operandRange      => 4
  | .illegalCommand    => 5
  | .witnessRange      => 6

/-- `STATUS.ERR <- e` (R16). -/
def State.setErr (s : State) (e : BitVec 8) : State := { s with block := { s.block with err := e } }

/-- `CHAR.C <- c` (R18). -/
def State.setChar (s : State) (c : Char8) : State := { s with block := { s.block with char := c } }

/-- Truncation of a recovered value to a character: the low 8 bits, unsigned (R127, R131). -/
def charOf (m : Nat) : Char8 := BitVec.ofNat 8 m

end Sys2Proof.Machine

namespace Sys2Proof

open Machine

/-- The faults a command can raise (R160's "raised by" column); IllegalCommand is raised by no legal command. -/
def Instr.causes : Instr → List Cause
  | .modmul _ _ _ _   => [.modulusZero]
  | .modexp _ _ _ _   => [.modulusZero]
  | .gcd _ _ _        => []
  | .modinv _ _ _     => [.degenerateModulus, .notInvertible]
  | .isprime _ _      => [.witnessRange]
  | .crtdec _ _ _ _ _ => [.operandRange, .notInvertible]

end Sys2Proof
end

