-- ==== Sys2Proof/Machine/Ops.lean ====
section
/-! DEFINITION. The shared operations: how a command ends (R57 steps 5 and 6), taking a fault (R162), one draw on the random-source port
(R40), the control-register writes (R15, R17), the read side of the register map (R31), the reset of the block (R191).
Nothing returns from a fault: "There is no handler and no return instruction" (R166, R169). -/

namespace Sys2Proof.Machine

/-- TAKING A FAULT (R57 step 5, R162): `STATUS.ERR <- code(F)` and nothing else; no operand register, no `CHAR`, no `ROUNDS`,
and `CMD` keeps the command value that faulted. -/
def State.takeFault (s : State) (c : Cause) : State := s.setErr c.code

/-- A command that completes with result `r` (R57 step 6): `x[rd] <- r`, `STATUS.ERR <- 0`. Every rule shows that its
result lies in `u64` (R5, R75), so the narrowing loses nothing. -/
def State.complete (s : State) (rd : Reg) (r : Nat) : State := (s.setReg rd (BitVec.ofNat 64 r)).setErr 0

/-- A CRTDEC that completes (R57 step 6, R127): as `complete`, and `CHAR.C <- r[7:0]`. -/
def State.completeChar (s : State) (rd : Reg) (r : Nat) : State :=
  ((s.setReg rd (BitVec.ofNat 64 r)).setChar (charOf r)).setErr 0

/-- The end of a command whose pure function answered `res` (R57 steps 5 and 6). -/
def State.finish (s : State) (rd : Reg) (res : Except Cause Nat) : State :=
  match res with
  | .error c => s.takeFault c
  | .ok r    => s.complete rd r

/-- The end of a CRTDEC (R57 steps 5 and 6, R127). -/
def State.finishChar (s : State) (rd : Reg) (res : Except Cause Nat) : State :=
  match res with
  | .error c => s.takeFault c
  | .ok r    => s.completeChar rd r

/-- The answer to the next `Draw`: the next scripted one, else the free value (R40, E1; log 2). -/
def RandomPort.nextAnswer (p : RandomPort) : Answer :=
  match p.script with
  | a :: _ => a
  | []     => .value (Config.freeAnswer p.draws.length)

/-- `Draw(lo, hi)` (R40, R41): one request, recorded with its answer; nothing is buffered or prefetched. The answer itself is
`nextAnswer`. -/
def RandomPort.draw (p : RandomPort) (lo hi : Word) : RandomPort :=
  { script := p.script.tail, draws := p.draws ++ [{ lo := lo, hi := hi, answer := p.nextAnswer }] }

/-- The state with the random-source port as a command leaves it. -/
def State.setRandom (s : State) (p : RandomPort) : State := { s with random := p }

/-- `CMD <- v`, all 64 bits (R15). -/
def State.setCmd (s : State) (v : Word) : State := { s with block := { s.block with cmd := v } }

/-- `ROUNDS.N <- v[31:0]`; `v[63:32]` is discarded (R17, R32). -/
def State.setRounds (s : State) (v : Word) : State :=
  { s with block := { s.block with rounds := v.extractLsb' 0 32 } }

/-- Reset of the block (R191): every register at its reset value, whatever came before. What is outside the block, the draws made
and the host's pending events, is untouched. -/
def State.resetBlock (s : State) : State := { s with block := Block.reset }

/-- The block's reply to a transaction (R31, R33, R35). -/
def State.reply (s : State) (r : Reply) : State :=
  { s with host := { s.host with replies := s.host.replies ++ [r] } }

/-- The register map, read side (R10, R31): `none` for a reserved index (R35). -/
def hostRead (k : Nat) (s : State) : Option Word :=
  if h : k < 8 then some (s.reg ⟨k, h⟩)
  else if k = 8 then some s.block.cmd
  else if k = 9 then some (s.block.err.setWidth 64)
  else if k = 10 then some (s.block.rounds.setWidth 64)
  else if k = 11 then some (s.block.char.setWidth 64)
  else none

/-- Continue with `f` from a next state; a fault or a refusal stands. -/
def onNext (f : State → State) : Outcome → Outcome
  | .next s    => .next (f s)
  | .fault e   => .fault e
  | .refused e => .refused e

end Sys2Proof.Machine
end

