-- ==== Sys2Proof/Machine/Euclid.lean ====
section
/-! DEFINITION. GCD and MODINV (`42_gcd_modinv.md`). -/

namespace Sys2Proof.Machine

/-- The iterative Euclidean loop of R90, at most `fuel` iterations (R199; log 11). -/
def gcdLoop : (fuel a b : Nat) → Nat
  | 0, a, _ => a
  | fuel + 1, a, b => if b = 0 then a else gcdLoop fuel b (a % b)

/-- `gcd(a, b)` for `u64` operands (R90). -/
def euclidGcd (a b : Nat) : Nat := gcdLoop Config.euclidIterations a b

/-- GCD `rd, ra, rb` (R92): completes for every operand pair. -/
def execGcd (rd rs1 rs2 : Reg) (s : State) : Outcome :=
  .next (s.finish rd (.ok (euclidGcd (s.src rs1) (s.src rs2))))

/-- The loop of R94 from `(r0, r1)` and `(s0, s1)`, at most `fuel` iterations (R199; log 11): the final remainder and its signed
coefficient. `r0 − qt·r1` is `r0 mod r1`. -/
def modinvLoop : (fuel r0 r1 : Nat) → (s0 s1 : Int) → Nat × Int
  | 0, r0, _, s0, _ => (r0, s0)
  | fuel + 1, r0, r1, s0, s1 =>
    if r1 = 0 then (r0, s0)
    else modinvLoop fuel r1 (r0 % r1) s1 (s0 - (r0 / r1 : Nat) * s1)

/-- The final coefficient brought into `[0, m)`: "add the modulus" when it is negative (R94). -/
def normalise (s0 : Int) (m : Nat) : Nat := (if s0 < 0 then s0 + m else s0).toNat

/-- What follows the loop in R94: no inverse unless the final remainder is 1, else the normalised coefficient. -/
def modinvEnd (m : Nat) (loop : Nat × Int) : Except Cause Nat :=
  if loop.1 ≠ 1 then .error .notInvertible else .ok (normalise loop.2 m)

/-- `modinv(a, m)` for `u64` operands (R94), its faults in the order of R97. -/
def modinv (a m : Nat) : Except Cause Nat :=
  if m ≤ 1 then .error .degenerateModulus
  else modinvEnd m (modinvLoop Config.euclidIterations a m 1 0)

/-- MODINV `rd, ra, rm` (R96). -/
def execModinv (rd rs1 rs2 : Reg) (s : State) : Outcome :=
  .next (s.finish rd (modinv (s.src rs1) (s.src rs2)))

end Sys2Proof.Machine
end

