-- ==== Sys2Proof/Machine/Modmul.lean ====
section
/-! DEFINITION. MODMUL (`40_modmul.md`). -/

namespace Sys2Proof.Machine

/-- The product over ℤ, then the remainder (R70, R71). -/
def modmul (a b m : Nat) : Nat := (a * b) % m

/-- MODMUL's function with its fault (R72, R73). -/
def modmulCommand (a b m : Nat) : Except Cause Nat :=
  if m = 0 then .error .modulusZero else .ok (modmul a b m)

/-- MODMUL `rd, ra, rb, rm` (R72). -/
def execModmul (rd rs1 rs2 rs3 : Reg) (s : State) : Outcome :=
  .next (s.finish rd (modmulCommand (s.src rs1) (s.src rs2) (s.src rs3)))

end Sys2Proof.Machine
end

