-- ==== Sys2Proof/Machine/Modexp.lean ====
section
/-! DEFINITION. MODEXP (`41_modexp.md`). -/

namespace Sys2Proof.Machine

/-- The square-and-multiply loop of R81 from `(r, b, e)`, at most `fuel` iterations (R86, R199; log 11). -/
def modexpLoop (modulus : Nat) : (fuel r b e : Nat) → Nat
  | 0, r, _, _ => r
  | fuel + 1, r, b, e =>
    if e = 0 then r
    else modexpLoop modulus fuel (if e % 2 = 1 then modmul r b modulus else r) (modmul b b modulus) (e / 2)

/-- `modexp` for a `u64` exponent and `modulus ≥ 1` (R80), by the algorithm of R81: `base` is reduced before the loop and `r` starts
at `1 mod modulus`. -/
def modexp (base exponent modulus : Nat) : Nat :=
  modexpLoop modulus Config.modexpIterations (1 % modulus) (base % modulus) exponent

/-- MODEXP's function with its fault (R82, R84). -/
def modexpCommand (base exponent modulus : Nat) : Except Cause Nat :=
  if modulus = 0 then .error .modulusZero else .ok (modexp base exponent modulus)

/-- MODEXP `rd, rbase, rexp, rmod` (R82). -/
def execModexp (rd rs1 rs2 rs3 : Reg) (s : State) : Outcome :=
  .next (s.finish rd (modexpCommand (s.src rs1) (s.src rs2) (s.src rs3)))

end Sys2Proof.Machine
end

