-- ==== Sys2Proof/Machine/Crt.lean ====
section
/-! DEFINITION. CRTDEC (`44_crt.md`). -/

namespace Sys2Proof.Machine

/-- The recombination coefficient (R130): the difference and the product over ℤ, reduced with the floor modulus of R5 (for
`p ≥ 1` it is `Int.emod`), so that `0 ≤ h < p` also for a negative difference. -/
def crtCoefficient (qInv m1 m2 p : Nat) : Nat := (((qInv : Int) * ((m1 : Int) - m2 + p)) % (p : Int)).toNat

/-- Steps 1, 2 and 4 to 7 of R126, once `qInv` is known. -/
def crtRecombine (qInv c d p q : Nat) : Nat :=
  let dp := d % (p - 1)
  let dq := d % (q - 1)
  let m1 := modexp c dp p
  let m2 := modexp c dq q
  m2 + crtCoefficient qInv m1 m2 p * q

/-- `crt(c, d, p, q)` (R125), its faults in the order of R129; literal evaluation otherwise (R128). -/
def crt (c d p q : Nat) : Except Cause Nat :=
  if p < 2 ∨ q < 2 then .error .operandRange
  else if 2 ^ 64 ≤ p * q then .error .operandRange
  else
    match modinv q p with
    | .error e => .error e
    | .ok qInv => .ok (crtRecombine qInv c d p q)

/-- CRTDEC `rd, rc, rd_, rp, rq` (R127). -/
def execCrtdec (rd rs1 rs2 rs3 rs4 : Reg) (s : State) : Outcome :=
  .next (s.finishChar rd (crt (s.src rs1) (s.src rs2) (s.src rs3) (s.src rs4)))

end Sys2Proof.Machine
end

