-- ==== Sys2Proof/Machine/Fermat.lean ====
section
/-! DEFINITION. ISPRIME (`43_fermat.md`). -/

namespace Sys2Proof.Machine

/-- How the Fermat test ends. -/
inductive FermatEnd where
  /-- The boolean answer (R110): `true` is "probably prime", `false` "definitely composite" (R114). -/
  | verdict (probablyPrime : Bool)
  /-- An answer outside `[2, n − 2]` (R115). -/
  | outOfRange
  /-- A request that is never answered (E3). -/
  | unanswered
deriving DecidableEq, Repr

/-- What one round makes of an answer (R113, R115): `none` when the round passes. -/
def fermatRound (n : Nat) : Answer → Option FermatEnd
  | .silence => some .unanswered
  | .value a =>
    if a.toNat < 2 ∨ n - 2 < a.toNat then some .outOfRange
    else if modexp a.toNat (n - 1) n ≠ 1 then some (.verdict false)
    else none

/-- A round's request, `Draw(2, n − 2)`, with the answer it got (R113). -/
def witnessRequest (n : Nat) (a : Answer) : Draw := { lo := 2, hi := BitVec.ofNat 64 (n - 2), answer := a }

/-- The port after a round's one request (R113). -/
def RandomPort.drawWitness (p : RandomPort) (n : Nat) : RandomPort := p.draw 2 (BitVec.ofNat 64 (n - 2))

/-- The rounds loop of R110 for `n ≥ 5`: one `Draw(2, n − 2)` a round, in round order, ending at once on a failure (R113, R117). -/
def fermatRounds (n : Nat) : (rounds : Nat) → RandomPort → FermatEnd × RandomPort
  | 0, p => (.verdict true, p)
  | rounds + 1, p =>
    match fermatRound n p.nextAnswer with
    | some e => (e, p.drawWitness n)
    | none   => fermatRounds n rounds (p.drawWitness n)

/-- `fermat(n, rounds)` (R110): the small cases without a draw, in the document's order (R111), then the rounds. -/
def fermat (n rounds : Nat) (p : RandomPort) : FermatEnd × RandomPort :=
  if n ≤ 1 then (.verdict false, p)
  else if n = 4 then (.verdict false, p)
  else if n ≤ 3 then (.verdict true, p)
  else fermatRounds n rounds p

/-- The boolean result as a value: 1 or 0 (R112). -/
def verdictValue (probablyPrime : Bool) : Nat := if probablyPrime then 1 else 0

/-- The end of an ISPRIME (R57 steps 5 and 6, R112, R115): the draws made stay made (R162 item 4). -/
def finishFermat (rd : Reg) (s : State) : FermatEnd × RandomPort → Outcome
  | (.verdict b, p)  => .next ((s.setRandom p).complete rd (verdictValue b))
  | (.outOfRange, p) => .next ((s.setRandom p).takeFault .witnessRange)
  | (.unanswered, _) => .fault .drawUnanswered

/-- ISPRIME `rd, rn` (R112); the round count is `ROUNDS.N`, read when the command starts. -/
def execIsprime (rd rs1 : Reg) (s : State) : Outcome :=
  finishFermat rd s (fermat (s.src rs1) s.roundCount s.random)

end Sys2Proof.Machine
end

