-- ==== Sys2Proof/Machine/Dispatch.lean ====
section
/-! DEFINITION. One arm per command (R53); each is steps 3 to 6 of the execution frame (R57) for that command. -/

namespace Sys2Proof.Machine

def exec (i : Instr) (s : State) : Host.Outcome State Fault Refusal :=
  match i with
  | .modmul rd rs1 rs2 rs3 => Sys2Proof.Machine.execModmul rd rs1 rs2 rs3 s
  | .modexp rd rs1 rs2 rs3 => Sys2Proof.Machine.execModexp rd rs1 rs2 rs3 s
  | .gcd rd rs1 rs2 => Sys2Proof.Machine.execGcd rd rs1 rs2 s
  | .modinv rd rs1 rs2 => Sys2Proof.Machine.execModinv rd rs1 rs2 s
  | .isprime rd rs1 => Sys2Proof.Machine.execIsprime rd rs1 s
  | .crtdec rd rs1 rs2 rs3 rs4 => Sys2Proof.Machine.execCrtdec rd rs1 rs2 rs3 rs4 s

end Sys2Proof.Machine
end

