-- ==== Sys2Proof/WellFormed.lean ====
section
/-! DEFINITION. Which raw terms are well formed. A term of `Instr` always is: its registers are `Fin 8`, and all eight are
legal (R51). The checks are on what the host can get wrong: a value written to `CMD`, stated through the mask and match of
R52 and R53 (the decoder is written from R55 instead, and Obligations compares the two), and a transaction (R35). -/

namespace Sys2Proof

/-- One row of R53 with its format's mask (R52). -/
structure OpcodeRow where
  mnemonic   : String
  mask       : CommandWord
  matchValue : CommandWord
deriving DecidableEq, Repr

/-- The opcode map (R53), with the masks of R52. -/
def opcodeRows : List OpcodeRow :=
  [ { mnemonic := "MODMUL",  mask := 0xFFF000FF, matchValue := 0x00000001 },
    { mnemonic := "MODEXP",  mask := 0xFFF000FF, matchValue := 0x00000002 },
    { mnemonic := "GCD",     mask := 0xFFFE00FF, matchValue := 0x00000003 },
    { mnemonic := "MODINV",  mask := 0xFFFE00FF, matchValue := 0x00000004 },
    { mnemonic := "ISPRIME", mask := 0xFFFFC0FF, matchValue := 0x00000005 },
    { mnemonic := "CRTDEC",  mask := 0xFF8000FF, matchValue := 0x00000006 } ]

/-- "A word `w` is the command of a row of rule R53 exactly when `(w AND mask) = match`" (R52). -/
def OpcodeRow.matches (row : OpcodeRow) (w : CommandWord) : Bool := w &&& row.mask == row.matchValue

/-- A legal value for `CMD`: `CMD.HI` is 0 (R15) and the word is the command of some row (R52). -/
def legalCommand (v : Word) : Bool :=
  v.extractLsb' 32 32 == 0 && opcodeRows.any (·.matches (v.extractLsb' 0 32))

/-- The access covers exactly one register (R35 (c), R36). -/
def Access.coversOne (a : Access) : Bool := a.offset == 0 && a.width == 64

/-- A transaction the block gives a meaning: not one of the refused ones of R35. -/
def Transaction.wellFormed : Transaction → Bool
  | .read a    => a.coversOne && decide (a.index < 12)
  | .write a _ => a.coversOne && decide (a.index < 12) && a.index != 9 && a.index != 11

/-- An event the model gives a meaning: there is one host (R42). -/
def Event.wellFormed : Event → Bool
  | .transaction _   => true
  | .reset           => true
  | .resetDuring _ _ => true
  | .concurrent _ _  => false

end Sys2Proof
end

