-- ==== Sys2Proof/Machine/Transactions.lean ====
section
/-! DEFINITION. The host transactions (R31, R32, R35), the execution of a value written to `CMD` (R57), and the events the
step delivers (R37, R191). -/

namespace Sys2Proof.Machine

/-- `Execute(v)` (R57): an illegal value is a fault and reads, draws and writes nothing else (R55); a legal one is its command. -/
def execute (v : Word) (s : State) : Outcome :=
  match decode v with
  | .error _ => .next (s.takeFault .illegalCommand)
  | .ok i    => exec i s

/-- `HostWrite(k, v)` on a whole register (R32); the write to `CMD` ends when the command ends (R33). A write to
`STATUS`, `CHAR` or a reserved index is refused: no state change, an error response (R35; log 4). -/
def hostWrite (k : Nat) (v : Word) (s : State) : Outcome :=
  if h : k < 8 then .next ((s.setReg ⟨k, h⟩ v).reply .done)
  else if k = 8 then onNext (·.reply .done) (execute v (s.setCmd v))
  else if k = 10 then .next ((s.setRounds v).reply .done)
  else .next (s.reply .error)

/-- The reply to a read of a whole register: its value, or the error response with no data (R31, R35). -/
def readReply : Option Word → Reply
  | some v => .data v
  | none   => .error

/-- One host transaction, atomic (R37). An access that does not cover exactly one register is refused (R35 (c)). -/
def transact (t : Transaction) (s : State) : Outcome :=
  match t with
  | .read a =>
    if a.coversOne then .next (s.reply (readReply (hostRead a.index s))) else .next (s.reply .error)
  | .write a v =>
    if a.coversOne then hostWrite a.index v s else .next (s.reply .error)

/-- The random-source port after the first `made` draws of the command `v`, or all of its draws if it makes fewer (R117, R191). Only
ISPRIME draws (R40); an illegal value draws nothing (R55). -/
def drawsMadeBy (v : Word) (made : Nat) (s : State) : RandomPort :=
  match decode v with
  | .error _                 => s.random
  | .ok (.modmul _ _ _ _)    => s.random
  | .ok (.modexp _ _ _ _)    => s.random
  | .ok (.gcd _ _ _)         => s.random
  | .ok (.modinv _ _ _)      => s.random
  | .ok (.isprime _ rs1)     => (fermat (s.src rs1) (min made s.roundCount) s.random).2
  | .ok (.crtdec _ _ _ _ _)  => s.random

/-- One event (R37, R191). A reset is not a transaction and has no reply; the write it interrupts gets none either (log 6). -/
def deliver (e : Event) (s : State) : Outcome :=
  match e with
  | .transaction t      => transact t s
  | .reset              => .next s.resetBlock
  | .resetDuring v made => .next (s.setRandom (drawsMadeBy v made s)).resetBlock
  | .concurrent _ _     => .refused .concurrentHosts

/-- The state with these events pending. -/
def State.setInbox (s : State) (es : List Event) : State := { s with host := { s.host with inbox := es } }

/-- The next event takes effect; with none pending the block is idle and holds its registers (R175, R191; log 7). -/
def deliverNext (s : State) : Outcome :=
  match s.host.inbox with
  | []      => .next s
  | e :: es => deliver e (s.setInbox es)

end Sys2Proof.Machine
end

