-- ==== Sys2Proof/Machine/Step.lean ====
section
/-! DEFINITION. The step: one event of the environment (R8: "the step relation is indexed by host transactions"), and where
an instruction is placed so that the next step runs it. -/

namespace Sys2Proof.Machine

/-- One step: the oldest pending event takes effect (R37). -/
def step (s : State) : Host.Outcome State Fault Refusal := deliverNext s

/-- The block fetches nothing (R14, R45): a command exists only as the value of a HostWrite to `CMD`. So the place `step` takes its
next instruction from is the head of the inbox, and this puts the write of that value there (log 8). -/
def State.withFetchWord (s : State) (nbits w : Nat) : State :=
  s.setInbox (.transaction (.hostWrite 8 (tableWordValue nbits w)) :: s.host.inbox)

end Sys2Proof.Machine
end

