-- ==== Sys2Proof/Machine/Bus.lean ====
section
/-! DEFINITION. Where a platform bus shows the register indices (R34, R36): `BASE` as the argument it is (R4, P1; log 9). The rules,
and so `step`, speak of indices only. -/

namespace Sys2Proof.Machine

/-- The bus address of register index `k` (R34). -/
def busAddress (placement : Config.BusPlacement) (k : Nat) : Nat := placement.base + k * placement.stride

/-- What a bus access of `width` bits at `address` addresses (R34, R36); below the block's first register it is not the block's. An
access that is not exactly one register is one that R35 (c) refuses. -/
def busAccess (placement : Config.BusPlacement) (address width : Nat) : Option Access :=
  if address < placement.base then none
  else some { index  := (address - placement.base) / placement.stride
              offset := (address - placement.base) % placement.stride * placement.unitBits
              width  := width }

/-- A read on the platform's own bus, as the block's transaction. -/
def platformRead (address width : Nat) : Option Transaction := (busAccess Config.base address width).map .read

/-- A write on the platform's own bus, as the block's transaction. -/
def platformWrite (address width : Nat) (v : Word) : Option Transaction :=
  (busAccess Config.base address width).map (.write · v)

end Sys2Proof.Machine
end

