-- ==== Sys2Proof/Machine/HostProcedures.lean ====
section
/-! DEFINITION. The host procedures (`45_host_procedures.md` R140 to R151). NOT hardware (R3): each is a program of the one host
over HostWrite and HostRead. Which operand registers they use is free (R140) and fixed here as in Program 1 (log 14). The host's
own generator is a free input, the list of the values it yields; a procedure that has used them all up is `pending`. Every host
value is computed over ℤ and must fit `u64` (R151); a host that does not keep it below `2^64` is outside the spec, and so is its
result (log 17). -/

namespace Sys2Proof.Machine

/-- The errors of host procedures (R149); `block` passes on the fault code of a command, DegenerateModulus among them. -/
inductive HostError where
  | invalidRange
  | samplingExhausted
  | roundTripMismatch
  | block (code : Word)
deriving DecidableEq, Repr

/-- How a host procedure stands. -/
inductive HostResult (α : Type) where
  | done (a : α) (s : State)
  | failed (e : HostError) (s : State)
  /-- The host's generator has not yet drawn the next candidate. -/
  | pending (s : State)
  /-- A value the host computed does not fit `u64`: "outside this spec" (R151, D31; log 17). -/
  | outsideSpec (s : State)
  /-- A command never completes (R199's proviso). -/
  | stuck
deriving DecidableEq, Repr

/-- Go on with `f` from a finished procedure. -/
def HostResult.andThen {α β : Type} (r : HostResult α) (f : α → State → HostResult β) : HostResult β :=
  match r with
  | .done a s   => f a s
  | .failed e s => .failed e s
  | .pending s  => .pending s
  | .outsideSpec s => .outsideSpec s
  | .stuck      => .stuck

/-- `WR`: one HostWrite (R60). -/
def hostWr (k : Nat) (v : Word) (s : State) : HostResult Unit :=
  match hostWrite k v s with
  | .next t    => .done () t
  | .fault _   => .stuck
  | .refused _ => .stuck

/-- `RD` of a register that can be read (R31). -/
def hostRd (k : Nat) (s : State) : Word := (hostRead k s).getD 0

/-- A command line followed by "if RD STATUS != 0: stop with that fault" (R140, R141, R143). -/
def hostCommand (i : Instr) (s : State) : HostResult Unit :=
  (hostWr 8 (commandValue i) s).andThen fun _ t =>
    if hostRd 9 t ≠ 0 then .failed (.block (hostRd 9 t)) t else .done () t

/-- `codePointOf(ch)`: unsigned, zero-extended (R142). -/
def codePointOf (ch : Char8) : Word := ch.setWidth 64

/-- The character loop of `encrypt` (R140), first to last, with `e` in `x1` and `n` in `x2`. -/
def encryptLoop : List Char8 → State → HostResult (List Word)
  | [], s => .done [] s
  | ch :: rest, s =>
    (hostWr 0 (codePointOf ch) s).andThen fun _ s =>
    (hostCommand (.modexp 3 0 1 2) s).andThen fun _ s =>
    (encryptLoop rest s).andThen fun cs t => .done (hostRd 3 s :: cs) t

/-- `encrypt(message, e, n)` (R140). -/
def encrypt (message : List Char8) (e n : Word) (s : State) : HostResult (List Word) :=
  (hostWr 1 e s).andThen fun _ s =>
  (hostWr 2 n s).andThen fun _ s => encryptLoop message s

/-- The residue loop of `decrypt` (R141), in order, with `d`, `p`, `q` in `x4`, `x5`, `x6`. -/
def decryptLoop : List Word → State → HostResult (List Char8)
  | [], s => .done [] s
  | c :: rest, s =>
    (hostWr 3 c s).andThen fun _ s =>
    (hostCommand (.crtdec 7 3 4 5 6) s).andThen fun _ s =>
    (decryptLoop rest s).andThen fun chs t => .done ((hostRd 11 s).extractLsb' 0 8 :: chs) t

/-- `decrypt(ciphertext, d, p, q)` (R141). -/
def decrypt (ciphertext : List Word) (d p q : Word) (s : State) : HostResult (List Char8) :=
  (hostWr 4 d s).andThen fun _ s =>
  (hostWr 5 p s).andThen fun _ s =>
  (hostWr 6 q s).andThen fun _ s => decryptLoop ciphertext s

/-- A finite cap has been reached (R143, D30); `none` is "unbounded" (R4 `MAX_RETRIES`). -/
def capReached (maxRetries : Option Nat) (tries : Nat) : Bool :=
  match maxRetries with
  | none   => false
  | some m => decide (m ≤ tries)

/-- A value of the host's generator is an answer of `host_random(lower, upper)` when it lies in the closed range (R143). -/
def inSampleRange (lower upper : Nat) (v : Word) : Bool := decide (lower ≤ v.toNat ∧ v.toNat ≤ upper)

/-- The loop of `samplePrime` (R143): the first value of `host_random(lower, upper)` that ISPRIME accepts, and what the
generator has not yet yielded. A value outside the range is no answer of `host_random`: it is passed over and is no try (log 14). -/
def sampleLoop (maxRetries : Option Nat) (lower upper : Nat) :
    (tries : Nat) → List Word → State → HostResult (Word × List Word)
  | _, [], s => .pending s
  | tries, v :: candidates, s =>
    if inSampleRange lower upper v then
      (hostWr 0 v s).andThen fun _ s =>
      (hostCommand (.isprime 1 0) s).andThen fun _ s =>
      if hostRd 1 s = 1 then .done (v, candidates) s
      else if capReached maxRetries (tries + 1) then .failed .samplingExhausted s
      else sampleLoop maxRetries lower upper (tries + 1) candidates s
    else sampleLoop maxRetries lower upper tries candidates s

/-- `samplePrime(lower, upper)` (R143, R149). -/
def samplePrime (maxRetries : Option Nat) (lower upper : Nat) (candidates : List Word) (s : State) :
    HostResult (Word × List Word) :=
  if upper < lower then .failed .invalidRange s else sampleLoop maxRetries lower upper 0 candidates s

/-- A value the host has computed over ℤ, given on as an Integer when it fits `u64` (R151; log 17). -/
def withInteger {α : Type} (v : Int) (s : State) (f : Word → HostResult α) : HostResult α :=
  if 0 ≤ v ∧ v < 2 ^ 64 then f (BitVec.ofNat 64 v.toNat) else .outsideSpec s

/-- `n = p·q` over ℤ (R144 step 3, R151). -/
def modulusOf (p q : Word) : Int := (p.toNat : Int) * q.toNat

/-- `φ = (p − 1)(q − 1)` over ℤ (R144 step 3, R151). -/
def totientOf (p q : Word) : Int := ((p.toNat : Int) - 1) * ((q.toNat : Int) - 1)

/-- `|p − q|` over ℤ (R144, R151). -/
def separation (p q : Word) : Nat := ((p.toNat : Int) - q.toNat).natAbs

/-- Step 2 of `generate`: resample `q` while `|p − q| < minSeparation` (R144); every pass draws at least one candidate,
so `fuel` above their number is never used up. DESIGN CHOICE (log 16): how `MAX_RETRIES` counts here, which R149 leaves open: this
loop counts its own rejected `q`, each `samplePrime` in it counts from 0, and both stop at the one cap. -/
def sampleSeparated (maxRetries : Option Nat) (lower upper minSeparation : Nat) (p : Word) :
    (fuel tries : Nat) → List Word → State → HostResult (Word × List Word)
  | 0, _, _, s => .pending s
  | fuel + 1, tries, candidates, s =>
    (samplePrime maxRetries lower upper candidates s).andThen fun r s =>
    if separation p r.1 < minSeparation then
      if capReached maxRetries (tries + 1) then .failed .samplingExhausted s
      else sampleSeparated maxRetries lower upper minSeparation p fuel (tries + 1) r.2 s
    else .done r s

/-- Step 4 of `generate`: sample `e = samplePrime(2, φ − 1)` until `gcd(e, φ) = 1` (R145). DESIGN CHOICE (log 16): how
`MAX_RETRIES` counts here, as in `sampleSeparated`: rejected `e` in this loop, from 0 in each `samplePrime`, one cap. -/
def sampleExponent (maxRetries : Option Nat) (phi : Word) :
    (fuel tries : Nat) → List Word → State → HostResult (Word × List Word)
  | 0, _, _, s => .pending s
  | fuel + 1, tries, candidates, s =>
    (samplePrime maxRetries 2 (phi.toNat - 1) candidates s).andThen fun r s =>
    (hostWr 0 r.1 s).andThen fun _ s =>
    (hostWr 1 phi s).andThen fun _ s =>
    (hostCommand (.gcd 2 0 1) s).andThen fun _ s =>
    if hostRd 2 s = 1 then .done r s
    else if capReached maxRetries (tries + 1) then .failed .samplingExhausted s
    else sampleExponent maxRetries phi fuel (tries + 1) r.2 s

/-- A KeyPair (R147): five Integers. -/
structure KeyPair where
  n : Word
  e : Word
  d : Word
  p : Word
  q : Word
deriving DecidableEq, Repr

/-- The invariant of a KeyPair (R147), the products over ℤ. -/
structure KeyPair.Invariant (k : KeyPair) (minSeparation : Nat) : Prop where
  modulus    : (k.n.toNat : Int) = modulusOf k.p k.q
  inverse    : ((k.e.toNat : Int) * k.d.toNat) % totientOf k.p k.q = 1
  coprime    : Int.gcd k.e.toNat (totientOf k.p k.q) = 1
  distinct   : k.p ≠ k.q
  separated  : minSeparation ≤ separation k.p k.q

/-- Step 5 of `generate` (R146): `d = modInverse(e, φ)`. -/
def keyInverse (e phi : Word) (s : State) : HostResult Word :=
  (hostWr 0 e s).andThen fun _ s =>
  (hostWr 1 phi s).andThen fun _ s =>
  (hostCommand (.modinv 2 0 1) s).andThen fun _ s => .done (hostRd 2 s) s

/-- `generate(primeLower, primeUpper, minSeparation)` (R144 to R146); `n` and `φ` must fit `u64` (R151). -/
def generate (maxRetries : Option Nat) (lower upper minSeparation : Nat) (candidates : List Word) (s : State) :
    HostResult KeyPair :=
  (samplePrime maxRetries lower upper candidates s).andThen fun rp s =>
  (sampleSeparated maxRetries lower upper minSeparation rp.1 (rp.2.length + 1) 0 rp.2 s).andThen fun rq s =>
  withInteger (modulusOf rp.1 rq.1) s fun n =>
  withInteger (totientOf rp.1 rq.1) s fun phi =>
  (sampleExponent maxRetries phi (rq.2.length + 1) 0 rq.2 s).andThen fun re s =>
  (keyInverse re.1 phi s).andThen fun d s =>
  .done { n := n, e := re.1, d := d, p := rp.1, q := rq.1 } s

/-- The document's tests of a generated key (R147): `n == p*q` by the host, `gcd(e, φ) == 1` by a GCD, `(e*d) mod φ == 1` by a MODMUL
of `(e, d, φ)`. -/
def keyTests (key : KeyPair) (s : State) : HostResult Bool :=
  withInteger (totientOf key.p key.q) s fun phi =>
  (hostWr 0 key.e s).andThen fun _ s =>
  (hostWr 1 phi s).andThen fun _ s =>
  (hostCommand (.gcd 2 0 1) s).andThen fun _ s =>
  (hostWr 4 key.d s).andThen fun _ s =>
  (hostCommand (.modmul 3 0 4 1) s).andThen fun _ s =>
  .done (decide ((key.n.toNat : Int) = modulusOf key.p key.q) && hostRd 2 s == 1 && hostRd 3 s == 1) s

/-- The self-check of a session (R148): encrypt, decrypt, compare. -/
def selfCheck (key : KeyPair) (message : List Char8) (s : State) : HostResult (List Char8) :=
  (encrypt message key.e key.n s).andThen fun cs s =>
  (decrypt cs key.d key.p key.q s).andThen fun m s =>
  if m = message then .done m s else .failed .roundTripMismatch s

end Sys2Proof.Machine
end

