-- ==== Sys2Proof/Machine/Assembler.lean ====
section
/-! DEFINITION. The spec's assembler notation (R59 to R61): the text of a command line and of a host line, the transaction a
command line abbreviates, and the three pseudo-instructions. -/

namespace Sys2Proof

/-- The mnemonic of a command (R53). -/
def Instr.mnemonic : Instr → String
  | .modmul _ _ _ _   => "MODMUL"
  | .modexp _ _ _ _   => "MODEXP"
  | .gcd _ _ _        => "GCD"
  | .modinv _ _ _     => "MODINV"
  | .isprime _ _      => "ISPRIME"
  | .crtdec _ _ _ _ _ => "CRTDEC"

/-- A register is spelled `x0 .. x7` (R59). -/
def regName (r : Reg) : String := "x" ++ toString r.val

/-- `MNEMONIC rd, rs1[, rs2[, rs3[, rs4]]]`: destination first, then the sources in order (R59). -/
def Instr.line (i : Instr) : String :=
  i.mnemonic ++ " " ++ String.intercalate ", " ((i.dest :: i.sources).map regName)

/-- The name of a register index (R60, R10); a reserved index has none. -/
def indexName (k : Nat) : Option String :=
  if h : k < 8 then some (regName ⟨k, h⟩)
  else if k = 8 then some "CMD"
  else if k = 9 then some "STATUS"
  else if k = 10 then some "ROUNDS"
  else if k = 11 then some "CHAR"
  else none

/-- `WR reg, value` and `RD reg` (R60); a transaction that is not on one named register has no line. -/
def Transaction.line : Transaction → Option String
  | .read a    => if a = .whole a.index then (indexName a.index).map ("RD " ++ ·) else none
  | .write a v =>
    if a = .whole a.index then (indexName a.index).map fun n => "WR " ++ n ++ ", " ++ toString v.toNat else none

/-- A command line abbreviates `WR CMD, <its word>` (R60). -/
def Instr.issue (i : Instr) : Transaction := .hostWrite 8 (commandValue i)

/-- `ENC rd, rch, re, rn` is `MODEXP rd, rch, re, rn` (R61, R83). -/
def pseudoEnc (rd rch re rn : Reg) : Instr := .modexp rd rch re rn

/-- `LI xk, value` is `WR xk, value` (R61). -/
def pseudoLi (r : Reg) (v : Word) : Transaction := .hostWrite r.val v

/-- `SETROUNDS value` is `WR ROUNDS, value` (R61). -/
def pseudoSetRounds (v : Word) : Transaction := .hostWrite 10 v

end Sys2Proof
end

