-- ==== Sys2Proof/Safety.lean ====
section
/-! DEFINITION. The terms claims are stated in: the invariants of the machine, a random source that answers, and a run in which no
command faulted (R167). -/

namespace Sys2Proof.Machine

/-- `STATUS.ERR` is the outcome of the command that `CMD` holds (R16, R15, R160): 0 or a code that this command can raise, or
IllegalCommand for an illegal value; before any command since reset both are 0. -/
def Block.StatusDescribesCommand (b : Block) : Prop :=
  match decode b.cmd with
  | .ok i    => b.err = 0 ∨ ∃ c ∈ i.causes, b.err = c.code
  | .error _ => b.err = 5 ∨ (b.cmd = 0 ∧ b.err = 0)

/-- Every request on the random-source port is a `Draw(2, n − 2)` with `n ≥ 5` (R40, R113). -/
def RandomPort.RequestsInContract (p : RandomPort) : Prop :=
  ∀ d ∈ p.draws, d.lo = 2 ∧ ∃ n : Word, 5 ≤ n.toNat ∧ d.hi.toNat = n.toNat - 2

/-- The invariant that every step keeps. -/
structure State.Consistent (s : State) : Prop where
  status   : s.block.StatusDescribesCommand
  requests : s.random.RequestsInContract

/-- The random source answers every `Draw` (the proviso of R199): no scripted silence. -/
abbrev RandomPort.Answers (p : RandomPort) : Prop := Answer.silence ∉ p.script

/-- The four tests of R55 on a value written to `CMD`, in numbers. -/
abbrev IllegalByTests (v : Word) : Prop :=
  v.toNat / 2 ^ 32 ≠ 0 ∨ v.toNat / 2 ^ 23 % 2 ^ 9 ≠ 0 ∨ (v.toNat % 256 = 0 ∨ 7 ≤ v.toNat % 256) ∨
  (v.toNat % 256 ≤ 5 ∧ v.toNat / 2 ^ 20 % 8 ≠ 0) ∨
  (v.toNat % 256 ∈ [3, 4, 5] ∧ v.toNat / 2 ^ 17 % 8 ≠ 0) ∨
  (v.toNat % 256 = 5 ∧ v.toNat / 2 ^ 14 % 8 ≠ 0)

/-- The record of requests `Draw(2, n − 2)` answered with these values, in order (R113, R117). -/
def answeredDraws (n : Nat) (answers : List Word) : List Draw :=
  answers.map fun a => witnessRequest n (.value a)

/-- A value a witness may have: in the range that was asked for (R40, R115). -/
abbrev InRange (n : Nat) (a : Word) : Prop := 2 ≤ a.toNat ∧ a.toNat ≤ n - 2

/-- The witness passes its round (R113), over ℤ. -/
abbrev Passes (n : Nat) (a : Word) : Prop := a.toNat ^ (n - 1) % n = 1

/-- The event is a HostWrite to `CMD` (R32), a run of one command to its end. -/
def isCmdWrite : Event → Bool
  | .transaction (.write a _) => a == .whole 8
  | .transaction (.read _)    => false
  | .reset                    => false
  | .resetDuring _ _          => false
  | .concurrent _ _           => false

/-- The event is a reset (R190, R191). -/
def isReset : Event → Bool
  | .transaction _   => false
  | .reset           => true
  | .resetDuring _ _ => true
  | .concurrent _ _  => false

/-- The next event, if any, is as `f` says. -/
def State.nextIs (s : State) (f : Event → Bool) : Bool := s.host.inbox.head?.any f

/-- "No fault occurred" in the next `k` steps (R167): nothing stopped, and after every `CMD` write among them `STATUS.ERR = 0`. -/
def cleanFor : Nat → State → Prop
  | 0, _     => True
  | k + 1, s => ∃ t, step s = .next t ∧ (s.nextIs isCmdWrite = true → t.block.err = 0) ∧ cleanFor k t

end Sys2Proof.Machine
end

