-- ==== Sys2Proof/Certificates/Slice0/Obligations.lean ====
section
/-! DEFINITION. The statements for the provers. A next state is written out as a record over the state before, so that each
result statement is also its command's frame: whatever the record does not name is unchanged. -/

open Sys2Proof Sys2Proof.Machine

/-! ### Encoding -/

/-- 95_test_vectors.md section 2.7 and the examples of R59: words written out by the spec, and values it calls illegal. -/
def Obligations.SpecWordsDecodeAsWritten : Prop :=
  decode 0x00068801 = .ok (.modmul 0 1 2 3) ∧ decode 0x00044302 = .ok (.modexp 3 0 1 2) ∧
  decode 0x00004203 = .ok (.gcd 2 0 1) ∧ decode 0x00014C04 = .ok (.modinv 4 1 5) ∧
  decode 0x00000105 = .ok (.isprime 1 0) ∧ decode 0x006B1F06 = .ok (.crtdec 7 3 4 5 6) ∧
  decode 0x007FFF06 = .ok (.crtdec 7 7 7 7 7) ∧ decode 0x0000000100000001 = .error .highHalf ∧
  decode 0x00800001 = .error .zeroField ∧ decode 0x00000007 = .error .reservedOpcode ∧
  decode 0x00004105 = .error .unusedField

/-- R58: "the encoder of rule R59 followed by this decoder is the identity", for every command and all register numbers. -/
def Obligations.DecodeOfEncodeIsIdentity : Prop :=
  ∀ i : Instr, decode (commandValue i) = .ok i

/-- R58: a legal value is the encoding of the command it denotes, so two different legal values never denote the same command. -/
def Obligations.LegalValueIsEncodingOfItsCommand : Prop :=
  ∀ (v : Word) (i : Instr), decode v = .ok i → v = commandValue i

/-- R52: "A word `w` is the command of a row of rule R53 exactly when `(w AND mask) = match`". -/
def Obligations.WordIsCommandExactlyWhenMaskMatches : Prop :=
  ∀ (w : CommandWord) (row : OpcodeRow), row ∈ opcodeRows →
    (w &&& row.mask = row.matchValue ↔
      ∃ i : Instr, decode (w.setWidth 64) = .ok i ∧ i.mnemonic = row.mnemonic)

/-- R55: exactly the values that fail one of the four tests are illegal, and writing one to `CMD` raises IllegalCommand: `CMD` keeps
the value, `STATUS.ERR` is 5, nothing else of the block changes, nothing is drawn, and the write completes (its reply is the model's record, log 1). Every
other value is a command, and its write never leaves `STATUS.ERR` at 5. -/
def Obligations.IllegalValueRaisesIllegalCommand : Prop :=
  ∀ v : Word,
    (IllegalByTests v → ∀ s : State, hostWrite 8 v s =
      .next { s with block := { s.block with cmd := v, err := 5 },
                     host := { s.host with replies := s.host.replies ++ [.done] } }) ∧
    (¬ IllegalByTests v → (∃ i : Instr, decode v = .ok i) ∧ ∀ s t : State, hostWrite 8 v s = .next t → t.block.err ≠ 5)

/-! ### The step -/

/-- R32, R37, R57: when the next event is a transaction, read or write, legal, illegal or refused, the step is that transaction at
the state with the event taken; when it is a HostWrite to `CMD` of a value that decodes to `i`, it is `exec i` at that state with `CMD`
holding the value, and when the command ends the write is answered. -/
def Obligations.StepRunsTheDecodedCommand : Prop :=
  (∀ (s : State) (t : Transaction) (es : List Event), s.host.inbox = .transaction t :: es →
    step s = transact t { s with host := { s.host with inbox := es } }) ∧
  ∀ (s : State) (v : Word) (es : List Event) (i : Instr),
    s.host.inbox = .transaction (.hostWrite 8 v) :: es → decode v = .ok i →
    step s = onNext (fun t => { t with host := { t.host with replies := t.host.replies ++ [.done] } })
      (exec i { s with block := { s.block with cmd := v }, host := { s.host with inbox := es } })

/-- R50, R58, log 8: a command placed by its 32-bit word is the one the very next step runs, from any state. -/
def Obligations.PlacedCommandRunsNext : Prop :=
  ∀ (s : State) (i : Instr),
    step (s.withFetchWord 32 (encode i).toNat) =
      onNext (fun t => { t with host := { t.host with replies := t.host.replies ++ [.done] } })
        (exec i { s with block := { s.block with cmd := commandValue i } })

/-- R175, R191 (log 7): with nothing pending the block is idle and holds everything. -/
def Obligations.IdleStepHoldsState : Prop :=
  ∀ s : State, s.host.inbox = [] → step s = .next s

/-- R42: two hosts at once are refused, and so have no next state. -/
def Obligations.ConcurrentHostsAreRefused : Prop :=
  ∀ (s : State) (t u : Transaction) (es : List Event),
    s.host.inbox = .concurrent t u :: es → step s = .refused .concurrentHosts

/-! ### MODMUL -/

/-- R70, R73: MODMUL writes `(a·b) mod m`, exact and in `[0, m)`; with modulus 0 it faults with code 2 and writes nothing else. -/
def Obligations.ModmulWritesExactRemainderOrFaults : Prop :=
  ∀ (rd rs1 rs2 rs3 : Reg) (s : State),
    (s.src rs3 ≠ 0 → ∃ v : Word,
      exec (.modmul rd rs1 rs2 rs3) s =
        .next { s with block := { s.block with x := s.block.x.set rd v, err := 0 } } ∧
      v.toNat = s.src rs1 * s.src rs2 % s.src rs3 ∧ v.toNat < s.src rs3 ∧
      v.toNat = (s.src rs1 % s.src rs3) * (s.src rs2 % s.src rs3) % s.src rs3) ∧
    (s.src rs3 = 0 →
      exec (.modmul rd rs1 rs2 rs3) s = .next { s with block := { s.block with err := 2 } })

/-! ### MODEXP -/

/-- R80, R84: MODEXP writes `base^exponent mod modulus` over ℤ; with modulus 0 it faults with code 2, whatever the other
operands are. -/
def Obligations.ModexpWritesPowerOrFaults : Prop :=
  ∀ (rd rs1 rs2 rs3 : Reg) (s : State),
    (s.src rs3 ≠ 0 → ∃ v : Word,
      exec (.modexp rd rs1 rs2 rs3) s =
        .next { s with block := { s.block with x := s.block.x.set rd v, err := 0 } } ∧
      v.toNat = s.src rs1 ^ s.src rs2 % s.src rs3 ∧ v.toNat < s.src rs3) ∧
    (s.src rs3 = 0 →
      exec (.modexp rd rs1 rs2 rs3) s = .next { s with block := { s.block with err := 2 } })

/-! ### GCD and MODINV -/

/-- R90, R92: GCD completes for every operand pair and writes the greatest common divisor, at most `max(a, b)`. -/
def Obligations.GcdWritesGreatestCommonDivisor : Prop :=
  ∀ (rd rs1 rs2 : Reg) (s : State), ∃ v : Word,
    exec (.gcd rd rs1 rs2) s = .next { s with block := { s.block with x := s.block.x.set rd v, err := 0 } } ∧
    v.toNat = Nat.gcd (s.src rs1) (s.src rs2) ∧ v.toNat ≤ max (s.src rs1) (s.src rs2)

/-- R91: the values at zero and at one, and the symmetry, of the algorithm itself. -/
def Obligations.GcdAtZeroAndItsSymmetry : Prop :=
  ∀ a b : Nat, a < 2 ^ 64 → b < 2 ^ 64 →
    euclidGcd a 0 = a ∧ euclidGcd 0 b = b ∧ euclidGcd 0 0 = 0 ∧ euclidGcd a b = euclidGcd b a ∧
    euclidGcd a a = a ∧ euclidGcd 1 b = 1 ∧ euclidGcd a 1 = 1 ∧
    (¬ (a = 0 ∧ b = 0) → euclidGcd a b ∣ a ∧ euclidGcd a b ∣ b ∧ ∀ d : Nat, d ∣ a → d ∣ b → d ≤ euclidGcd a b)

/-- R95, R96: MODINV of an invertible value completes and writes the unique inverse in `[0, m)`. -/
def Obligations.ModinvWritesTheUniqueInverse : Prop :=
  ∀ (rd rs1 rs2 : Reg) (s : State), 2 ≤ s.src rs2 → Nat.gcd (s.src rs1) (s.src rs2) = 1 → ∃ v : Word,
    exec (.modinv rd rs1 rs2) s = .next { s with block := { s.block with x := s.block.x.set rd v, err := 0 } } ∧
    v.toNat < s.src rs2 ∧ s.src rs1 * v.toNat % s.src rs2 = 1 ∧
    ∀ d : Nat, d < s.src rs2 → s.src rs1 * d % s.src rs2 = 1 → d = v.toNat

/-- R97: MODINV's faults, in its order: a modulus of 0 or 1 first, whatever the value; then a value that is not coprime. In
both cases nothing but `STATUS.ERR` is written. -/
def Obligations.ModinvFaultsInOrder : Prop :=
  ∀ (rd rs1 rs2 : Reg) (s : State),
    (s.src rs2 ≤ 1 →
      exec (.modinv rd rs1 rs2) s = .next { s with block := { s.block with err := 1 } }) ∧
    (2 ≤ s.src rs2 → Nat.gcd (s.src rs1) (s.src rs2) ≠ 1 →
      exec (.modinv rd rs1 rs2) s = .next { s with block := { s.block with err := 3 } })

/-- R95: the value need not be reduced first, after any number of iterations the coefficient is at most `m` in absolute value,
and the final one of an invertible value lies strictly between `−m` and `m`. -/
def Obligations.ModinvCoefficientsStayBounded : Prop :=
  ∀ a m : Nat, a < 2 ^ 64 → m < 2 ^ 64 → 2 ≤ m →
    modinv a m = modinv (a % m) m ∧
    (∀ k : Nat, (modinvLoop k a m 1 0).2.natAbs ≤ m) ∧
    (Nat.gcd a m = 1 → (modinvLoop Config.euclidIterations a m 1 0).2.natAbs < m)

/-- R199's iteration bounds: on `u64` operands no loop has anything left to do after 64 (MODEXP) or 130 (GCD, MODINV)
iterations, so the fuel of the model's loops cuts nothing off. -/
def Obligations.LoopsEndWithinTheirBounds : Prop :=
  (∀ m r b e k : Nat, e < 2 ^ 64 → modexpLoop m (64 + k) r b e = modexpLoop m 64 r b e) ∧
  (∀ a b k : Nat, a < 2 ^ 64 → b < 2 ^ 64 → gcdLoop (130 + k) a b = gcdLoop 130 a b) ∧
  (∀ (a m k : Nat) (s0 s1 : Int), a < 2 ^ 64 → m < 2 ^ 64 →
    modinvLoop (130 + k) a m s0 s1 = modinvLoop 130 a m s0 s1)

/-! ### ISPRIME -/

/-- R111: the five small operands are decided without a draw, whatever `ROUNDS` is. -/
def Obligations.IsprimeSmallOperandsNeedNoDraw : Prop :=
  ∀ (rd rs1 : Reg) (s : State), s.src rs1 ≤ 4 →
    exec (.isprime rd rs1) s = .next { s with block := { s.block with
      x := s.block.x.set rd (if s.src rs1 = 2 ∨ s.src rs1 = 3 then 1 else 0), err := 0 } }

/-- R116: with zero rounds every `n ≥ 5` is answered 1 with no draw, and the small operands as ever. -/
def Obligations.IsprimeZeroRounds : Prop :=
  ∀ (rd rs1 : Reg) (s : State), s.block.rounds = 0 →
    exec (.isprime rd rs1) s = .next { s with block := { s.block with
      x := s.block.x.set rd (if s.src rs1 ≤ 1 ∨ s.src rs1 = 4 then 0 else 1), err := 0 } }

/-- R110, R113, R117: when as many answers as there are rounds are in range and pass, the result is 1 and exactly these draws
were made. -/
def Obligations.IsprimeAllRoundsPass : Prop :=
  ∀ (rd rs1 : Reg) (s : State) (good : List Word) (rest : List Answer), 5 ≤ s.src rs1 →
    s.random.script = good.map .value ++ rest → good.length = s.roundCount →
    (∀ a ∈ good, InRange (s.src rs1) a ∧ Passes (s.src rs1) a) →
    exec (.isprime rd rs1) s = .next { s with
      block := { s.block with x := s.block.x.set rd 1, err := 0 },
      random := { script := rest, draws := s.random.draws ++ answeredDraws (s.src rs1) good } }

/-- R113, R117: the first round whose witness does not pass ends the command at once with 0, which is a result and no fault; no
further draw is made. -/
def Obligations.IsprimeFirstFailureEndsIt : Prop :=
  ∀ (rd rs1 : Reg) (s : State) (good : List Word) (bad : Word) (rest : List Answer), 5 ≤ s.src rs1 →
    s.random.script = good.map .value ++ .value bad :: rest → good.length < s.roundCount →
    (∀ a ∈ good, InRange (s.src rs1) a ∧ Passes (s.src rs1) a) →
    InRange (s.src rs1) bad → ¬ Passes (s.src rs1) bad →
    exec (.isprime rd rs1) s = .next { s with
      block := { s.block with x := s.block.x.set rd 0, err := 0 },
      random := { script := rest, draws := s.random.draws ++ answeredDraws (s.src rs1) (good ++ [bad]) } }

/-- R115: an answer outside `[2, n − 2]` ends the command with WitnessRange: `x[rd]` is not written, no further draw is made and
the draws already made stay made. -/
def Obligations.IsprimeOutOfRangeAnswerFaults : Prop :=
  ∀ (rd rs1 : Reg) (s : State) (good : List Word) (bad : Word) (rest : List Answer), 5 ≤ s.src rs1 →
    s.random.script = good.map .value ++ .value bad :: rest → good.length < s.roundCount →
    (∀ a ∈ good, InRange (s.src rs1) a ∧ Passes (s.src rs1) a) →
    (bad.toNat < 2 ∨ s.src rs1 - 2 < bad.toNat) →
    exec (.isprime rd rs1) s = .next { s with
      block := { s.block with err := 6 },
      random := { script := rest, draws := s.random.draws ++ answeredDraws (s.src rs1) (good ++ [bad]) } }

/-- R199's proviso, E3 (log 3): a `Draw` that is never answered leaves no next state. -/
def Obligations.IsprimeUnansweredDrawHangs : Prop :=
  ∀ (rd rs1 : Reg) (s : State) (good : List Word) (rest : List Answer), 5 ≤ s.src rs1 →
    s.random.script = good.map .value ++ .silence :: rest → good.length < s.roundCount →
    (∀ a ∈ good, InRange (s.src rs1) a ∧ Passes (s.src rs1) a) →
    exec (.isprime rd rs1) s = .fault .drawUnanswered

/-- R40, R117: whatever the answers are, scripted or free, an ISPRIME that ends has requested only `Draw(2, n − 2)`, with `n ≥ 5`,
at most `ROUNDS.N` times. -/
def Obligations.IsprimeRequestsOnlyItsRange : Prop :=
  ∀ (rd rs1 : Reg) (s t : State), exec (.isprime rd rs1) s = .next t → ∃ ds : List Draw,
    t.random.draws = s.random.draws ++ ds ∧ ds.length ≤ s.roundCount ∧
    ∀ d ∈ ds, 5 ≤ s.src rs1 ∧ d.lo = 2 ∧ d.hi.toNat = s.src rs1 - 2

/-- R110, R113, R115, R117: the answers recorded for an ISPRIME of `n ≥ 5` that ends, scripted or free, decide how it ends: every one of
`ROUNDS.N` answers in range and passing gives 1; a last one that does not pass gives 0; a last one out of range gives
WitnessRange, with `x[rd]` as it was. The answers are the next of the script, then free values (log 2). -/
def Obligations.IsprimeOutcomeFollowsItsAnswers : Prop :=
  ∀ (rd rs1 : Reg) (s t : State), 5 ≤ s.src rs1 → exec (.isprime rd rs1) s = .next t → ∃ answers : List Word,
    t.random.draws = s.random.draws ++ answeredDraws (s.src rs1) answers ∧
    t.random.script = s.random.script.drop answers.length ∧
    (∀ (k : Nat) (h : k < answers.length), Answer.value answers[k] =
      (s.random.script[k]?).getD (.value (Config.freeAnswer (s.random.draws.length + k)))) ∧
    ((answers.length = s.roundCount ∧ (∀ a ∈ answers, InRange (s.src rs1) a ∧ Passes (s.src rs1) a) ∧
        t.block = { s.block with x := s.block.x.set rd 1, err := 0 }) ∨
      ∃ (good : List Word) (last : Word), answers = good ++ [last] ∧ good.length < s.roundCount ∧
        (∀ a ∈ good, InRange (s.src rs1) a ∧ Passes (s.src rs1) a) ∧
        ((InRange (s.src rs1) last ∧ ¬ Passes (s.src rs1) last ∧
            t.block = { s.block with x := s.block.x.set rd 0, err := 0 }) ∨
          (¬ InRange (s.src rs1) last ∧ t.block = { s.block with err := 6 })))

/-- R114: for a prime `n ≥ 5` every in-range witness passes, so the result is 1 for every `ROUNDS.N` and every answer
sequence within range. -/
def Obligations.PrimesPassForEveryAnswerSequence : Prop :=
  ∀ (rd rs1 : Reg) (s : State) (answers : List Word) (rest : List Answer), 5 ≤ s.src rs1 → (s.src rs1).Prime →
    s.random.script = answers.map .value ++ rest → answers.length = s.roundCount →
    (∀ a ∈ answers, InRange (s.src rs1) a) →
    exec (.isprime rd rs1) s = .next { s with
      block := { s.block with x := s.block.x.set rd 1, err := 0 },
      random := { script := rest, draws := s.random.draws ++ answeredDraws (s.src rs1) answers } }

/-- R114, R118: 561 is answered 1 for every sequence of witnesses coprime to it, although it is `3·11·17`: "ISPRIME returns 1 only
for primes" is false of this block. -/
def Obligations.CarmichaelNumberPasses : Prop :=
  ¬ Nat.Prime 561 ∧
  ∀ (rd rs1 : Reg) (s : State) (answers : List Word) (rest : List Answer), s.src rs1 = 561 →
    s.random.script = answers.map .value ++ rest → answers.length = s.roundCount →
    (∀ a ∈ answers, InRange 561 a ∧ Nat.gcd a.toNat 561 = 1) →
    ∃ t : State, exec (.isprime rd rs1) s = .next t ∧ t.reg rd = 1 ∧ t.block.err = 0

/-! ### CRTDEC -/

/-- R125, R126, R127, R130: on operands that pass R129's tests CRTDEC completes and writes `m = m2 + h·q` of the seven steps, and the
low 8 bits of `m` to `CHAR`. -/
def Obligations.CrtdecWritesTheRecombination : Prop :=
  ∀ (rd rs1 rs2 rs3 rs4 : Reg) (s : State), 2 ≤ s.src rs3 → 2 ≤ s.src rs4 → s.src rs3 * s.src rs4 < 2 ^ 64 →
    Nat.gcd (s.src rs4) (s.src rs3) = 1 → ∃ (v : Word) (qInv m1 m2 h : Nat),
      exec (.crtdec rd rs1 rs2 rs3 rs4) s = .next { s with block := { s.block with
        x := s.block.x.set rd v, err := 0, char := v.extractLsb' 0 8 } } ∧
      qInv < s.src rs3 ∧ s.src rs4 * qInv % s.src rs3 = 1 ∧
      m1 = s.src rs1 ^ (s.src rs2 % (s.src rs3 - 1)) % s.src rs3 ∧
      m2 = s.src rs1 ^ (s.src rs2 % (s.src rs4 - 1)) % s.src rs4 ∧
      h < s.src rs3 ∧ (h : Int) = ((qInv : Int) * (m1 - m2 + s.src rs3)) % (s.src rs3 : Int) ∧
      v.toNat = m2 + h * s.src rs4

/-- R129: CRTDEC's faults in its order: `p < 2` or `q < 2`, then `p·q ≥ 2^64`, both OperandRange; then `gcd(q, p) ≠ 1`, NotInvertible;
nothing but `STATUS.ERR` is written. Otherwise there is no fault, so neither DegenerateModulus nor ModulusZero can occur. -/
def Obligations.CrtdecFaultsInOrder : Prop :=
  ∀ (rd rs1 rs2 rs3 rs4 : Reg) (s : State),
    (s.src rs3 < 2 ∨ s.src rs4 < 2 →
      exec (.crtdec rd rs1 rs2 rs3 rs4) s = .next { s with block := { s.block with err := 4 } }) ∧
    (2 ≤ s.src rs3 → 2 ≤ s.src rs4 → 2 ^ 64 ≤ s.src rs3 * s.src rs4 →
      exec (.crtdec rd rs1 rs2 rs3 rs4) s = .next { s with block := { s.block with err := 4 } }) ∧
    (2 ≤ s.src rs3 → 2 ≤ s.src rs4 → s.src rs3 * s.src rs4 < 2 ^ 64 → Nat.gcd (s.src rs4) (s.src rs3) ≠ 1 →
      exec (.crtdec rd rs1 rs2 rs3 rs4) s = .next { s with block := { s.block with err := 3 } }) ∧
    (2 ≤ s.src rs3 → 2 ≤ s.src rs4 → s.src rs3 * s.src rs4 < 2 ^ 64 → Nat.gcd (s.src rs4) (s.src rs3) = 1 →
      ∃ t : State, exec (.crtdec rd rs1 rs2 rs3 rs4) s = .next t ∧ t.block.err = 0)

/-- R132: the result is at most `p·q − 1`, its residue modulo `q` is `m2` and its residue modulo `p` is `m1`. -/
def Obligations.CrtdecResultHasBothResidues : Prop :=
  ∀ (rd rs1 rs2 rs3 rs4 : Reg) (s t : State),
    exec (.crtdec rd rs1 rs2 rs3 rs4) s = .next t → t.block.err = 0 →
    (t.reg rd).toNat ≤ s.src rs3 * s.src rs4 - 1 ∧
    (t.reg rd).toNat % s.src rs4 = s.src rs1 ^ (s.src rs2 % (s.src rs4 - 1)) % s.src rs4 ∧
    (t.reg rd).toNat % s.src rs3 = s.src rs1 ^ (s.src rs2 % (s.src rs3 - 1)) % s.src rs3

/-- R128 item 1: a residue `c ≥ p·q` is accepted and gives what `c mod (p·q)` gives. -/
def Obligations.CrtdecReducesItsResidue : Prop :=
  ∀ c d p q : Nat, c < 2 ^ 64 → d < 2 ^ 64 → p < 2 ^ 64 → q < 2 ^ 64 → crt c d p q = crt (c % (p * q)) d p q

/-- R128 item 2: with `p = 2` literal evaluation makes `m1 = 1` for every `c`, so the result is always odd, also for even `c`; the
spec's own example is `crt(0, 1, 2, 3) = 3`. -/
def Obligations.CrtdecWithPrimeTwoIsLiteral : Prop :=
  crt 0 1 2 3 = .ok 3 ∧
  ∀ (rd rs1 rs2 rs3 rs4 : Reg) (s : State), s.src rs3 = 2 → s.src rs4 % 2 = 1 → 3 ≤ s.src rs4 →
    2 * s.src rs4 < 2 ^ 64 → ∃ t : State,
      exec (.crtdec rd rs1 rs2 rs3 rs4) s = .next t ∧ t.block.err = 0 ∧ (t.reg rd).toNat % 2 = 1

/-- R133, for odd primes (with `p = 2` or `q = 2` it fails, as R133 and R128 item 2 say; log 15): MODEXP under `(e, p·q)` and then CRTDEC
under `(d, p, q)` both complete and give back the value, and `CHAR` its low 8 bits (the value itself when it is a byte). -/
def Obligations.EncryptionThenCrtDecryptionRoundTrips : Prop :=
  ∀ (rb re rn rc rx rp rq rd : Reg) (s : State) (p q : Nat),
    p.Prime → q.Prime → p ≠ q → p ≠ 2 → q ≠ 2 → p * q < 2 ^ 64 →
    s.src rn = p * q → s.src rp = p → s.src rq = q →
    s.src re * s.src rx % ((p - 1) * (q - 1)) = 1 → s.src rb < p * q →
    rx ≠ rc → rp ≠ rc → rq ≠ rc → ∃ t u : State,
      exec (.modexp rc rb re rn) s = .next t ∧ t.block.err = 0 ∧
      exec (.crtdec rd rc rx rp rq) t = .next u ∧ u.block.err = 0 ∧
      u.src rd = s.src rb ∧ u.block.char.toNat = s.src rb % 256

/-! ### Faults, frames and isolation -/

/-- R162: after a write to `CMD` that faulted, the block differs from before only in `CMD`, which holds the value written, and
`STATUS.ERR`, which holds the code of a fault; the draws made stay made; the write has completed normally. -/
def Obligations.FaultWritesOnlyStatus : Prop :=
  ∀ (v : Word) (s t : State), hostWrite 8 v s = .next t → t.block.err ≠ 0 →
    (∃ c : Cause, t.block = { s.block with cmd := v, err := c.code }) ∧
    (∃ ds : List Draw, t.random.draws = s.random.draws ++ ds) ∧
    t.host = { s.host with replies := s.host.replies ++ [.done] }

/-- R13, R17, R18, R57: a command that ends changes no operand register but its `rd`, no `CMD`, no `ROUNDS`, `CHAR` only if it is
CRTDEC, the random-source port only if it is ISPRIME, and nothing of the host's. -/
def Obligations.CommandsChangeNothingElse : Prop :=
  ∀ (i : Instr) (s t : State), exec i s = .next t →
    (∀ r : Reg, r ≠ i.dest → t.reg r = s.reg r) ∧
    t.block.cmd = s.block.cmd ∧ t.block.rounds = s.block.rounds ∧ t.host = s.host ∧
    (i.mnemonic ≠ "CRTDEC" → t.block.char = s.block.char) ∧
    (i.mnemonic ≠ "ISPRIME" → t.random = s.random)

/-- R160, R199 (log 3): with a random source that is never scripted silent, every command ends (that a draw past the script is always
answered is the model's choice, log 3), with `STATUS.ERR` 0 or the code of a fault that R160 lets
that command raise. -/
def Obligations.EveryCommandEndsWithItsOwnCodes : Prop :=
  ∀ (i : Instr) (s : State), s.random.Answers → ∃ t : State, exec i s = .next t ∧ t.random.Answers ∧
    (t.block.err = 0 ∨ ∃ c ∈ i.causes, t.block.err = c.code)

/-- R16, R19: no command reads `STATUS`, and every command overwrites it: the outcome is the same whatever `STATUS.ERR` was. -/
def Obligations.CommandsIgnoreEarlierStatus : Prop :=
  ∀ (i : Instr) (s : State) (e : BitVec 8),
    exec i { s with block := { s.block with err := e } } = exec i s

/-- R19, R20, R57: what a command leaves in `rd`, `STATUS.ERR` and the port depends only on its source registers, on `ROUNDS` and
on the random source: two states that agree on these and may differ in everything else get the same outcome there. -/
def Obligations.OutcomeDependsOnlyOnSources : Prop :=
  ∀ (i : Instr) (s s' t : State), (∀ r ∈ i.sources, s.reg r = s'.reg r) → s.block.rounds = s'.block.rounds →
    s.random = s'.random → exec i s = .next t → ∃ t' : State, exec i s' = .next t' ∧
      t'.block.err = t.block.err ∧ t'.random = t.random ∧ (t.block.err = 0 → t'.reg i.dest = t.reg i.dest) ∧
      (t.block.err = 0 → i.mnemonic = "CRTDEC" → t'.block.char = t.block.char)

/-- R15: after a write to `CMD`, whether the command completed, faulted or was illegal, `CMD` holds the value written, and
reading it shows it and executes nothing. -/
def Obligations.CmdHoldsTheLastValueWritten : Prop :=
  ∀ (v : Word) (s t : State), hostWrite 8 v s = .next t →
    transact (.hostRead 8) t = .next { t with host := { t.host with replies := t.host.replies ++ [.data v] } }

/-! ### The host interface -/

/-- R31, R38: what a read of each register answers; it changes nothing but the record of replies (the model's own, log 1). -/
def Obligations.HostReadAnswersTheRegister : Prop :=
  ∀ (s : State) (k : Nat) (w : Word),
    ((∃ h : k < 8, w = s.reg ⟨k, h⟩) ∨ (k = 8 ∧ w = s.block.cmd) ∨ (k = 9 ∧ w.toNat = s.block.err.toNat) ∨
      (k = 10 ∧ w.toNat = s.block.rounds.toNat) ∨ (k = 11 ∧ w.toNat = s.block.char.toNat)) →
    transact (.hostRead k) s = .next { s with host := { s.host with replies := s.host.replies ++ [.data w] } }

/-- R32: the four cases of HostWrite. A write to an operand register or to `ROUNDS` changes that register and nothing else. -/
def Obligations.HostWriteByIndex : Prop :=
  ∀ (s : State) (v : Word),
    (∀ r : Reg, transact (.hostWrite r.val v) s =
      .next { s with block := { s.block with x := s.block.x.set r v },
                     host := { s.host with replies := s.host.replies ++ [.done] } }) ∧
    (transact (.hostWrite 8 v) s =
      onNext (fun t => { t with host := { t.host with replies := t.host.replies ++ [.done] } })
        (execute v { s with block := { s.block with cmd := v } })) ∧
    (transact (.hostWrite 10 v) s =
      .next { s with block := { s.block with rounds := v.extractLsb' 0 32 },
                     host := { s.host with replies := s.host.replies ++ [.done] } }) ∧
    (∀ k : Nat, k = 9 ∨ k = 11 → transact (.hostWrite k v) s =
      .next { s with host := { s.host with replies := s.host.replies ++ [.error] } })

/-- R17: a write to `ROUNDS` keeps the low 32 bits and discards the rest without error, and the next read shows them. -/
def Obligations.RoundsKeepsTheLowHalf : Prop :=
  ∀ (s t : State) (v : Word), transact (.hostWrite 10 v) s = .next t →
    t.block.rounds.toNat = v.toNat % 2 ^ 32 ∧
    transact (.hostRead 10) t = .next { t with host := { t.host with
      replies := s.host.replies ++ [.done, .data (BitVec.ofNat 64 (v.toNat % 2 ^ 32))] } }

/-- R35: a read or write of an index of 12 or above, a write to `STATUS` or `CHAR`, and an access that is not exactly one register get
an error response without data and change no state. -/
def Obligations.RefusedTransactionsChangeNothing : Prop :=
  ∀ (s : State) (a : Access) (v : Word),
    (12 ≤ a.index ∨ a.offset ≠ 0 ∨ a.width ≠ 64 →
      transact (.read a) s = .next { s with host := { s.host with replies := s.host.replies ++ [.error] } }) ∧
    (12 ≤ a.index ∨ a.index = 9 ∨ a.index = 11 ∨ a.offset ≠ 0 ∨ a.width ≠ 64 →
      transact (.write a v) s = .next { s with host := { s.host with replies := s.host.replies ++ [.error] } })

/-! ### Reset -/

/-- R23: every register's value after reset. -/
def Obligations.ResetValues : Prop :=
  (∀ r : Reg, State.reset.reg r = 0) ∧ State.reset.block.cmd = 0 ∧ State.reset.block.err = 0 ∧
  State.reset.block.rounds = 5 ∧ State.reset.block.char = 0

/-- R191: a reset between two transactions maps every state to the one reset state of the block; nothing survives in it. -/
def Obligations.ResetMapsEveryStateToTheResetState : Prop :=
  ∀ (s : State) (es : List Event), s.host.inbox = .reset :: es →
    step s = .next { block := State.reset.block, random := s.random, host := { s.host with inbox := es } }

/-- R191: a reset that arrives while a command is in progress, be it one that would never end, discards it: the block is in the
reset state, with no partial result, the draws made before stay made and of the command's own at most `made`; where the
command would have ended, they are the first `made` it would have made (how the model names the moment is its own, log 6). -/
def Obligations.ResetDuringCommandKeepsItsDraws : Prop :=
  ∀ (s : State) (v : Word) (made : Nat) (es : List Event), s.host.inbox = .resetDuring v made :: es →
    ∃ t : State, step s = .next t ∧ t.block = State.reset.block ∧ t.host = { s.host with inbox := es } ∧
      (∃ ds : List Draw, t.random.draws = s.random.draws ++ ds ∧ ds.length ≤ made) ∧
      ∀ u : State, execute v s = .next u →
        t.random.draws = u.random.draws.take (s.random.draws.length + made)

/-- R16: "Nothing but the end of a command and reset writes `STATUS`": a step that delivers neither leaves `STATUS.ERR`. -/
def Obligations.OnlyCommandsAndResetWriteStatus : Prop :=
  ∀ s t : State, s.nextIs isCmdWrite = false → s.nextIs isReset = false → step s = .next t → t.block.err = s.block.err

/-! ### Invariants -/

/-- Every step keeps the machine consistent: `STATUS.ERR` is an outcome that the command in `CMD` can have (R15, R16, R160), and every
request on the random-source port was a `Draw(2, n − 2)` with `n ≥ 5` (R40). -/
def Obligations.EveryStepKeepsTheMachineConsistent : Prop :=
  ∀ s t : State, s.Consistent → step s = .next t → t.Consistent

/-- The reset state is consistent. -/
def Obligations.ResetIsConsistent : Prop := State.reset.Consistent

/-! ### The document's round-trip law over the host procedures -/

/-- R140: `encrypt` gives one residue per character, in order, each `codePointOf(char)^e mod n`, and leaves no fault. -/
def Obligations.EncryptMapsEachCharacter : Prop :=
  ∀ (message : List Char8) (e n : Word) (s : State), n ≠ 0 → ∃ t : State,
    encrypt message e n s = .done (message.map fun ch => BitVec.ofNat 64 (ch.toNat ^ e.toNat % n.toNat)) t

/-- T5, R133, R140, R141 (log 15): `decrypt(encrypt(S, e, n), d, p, q) == S` for every string of characters below `n`, under any
key of odd distinct primes. -/
def Obligations.DecryptOfEncryptIsTheMessage : Prop :=
  ∀ (message : List Char8) (e d p q : Word) (s : State),
    p.toNat.Prime → q.toNat.Prime → p ≠ q → p ≠ 2 → q ≠ 2 → p.toNat * q.toNat < 2 ^ 64 →
    e.toNat * d.toNat % ((p.toNat - 1) * (q.toNat - 1)) = 1 → (∀ ch ∈ message, ch.toNat < p.toNat * q.toNat) →
    ∃ t u : State, ∃ cs : List Word,
      encrypt message e (BitVec.ofNat 64 (p.toNat * q.toNat)) s = .done cs t ∧ decrypt cs d p q t = .done message u

/-- R143 (log 14, log 16): a value that `samplePrime` returns lies in the closed range, and ISPRIME has answered 1 for it, so it is at least
2; an empty range is InvalidRange. -/
def Obligations.SamplePrimeReturnsAnAcceptedValueOfItsRange : Prop :=
  ∀ (maxRetries : Option Nat) (lower upper : Nat) (candidates : List Word) (s : State),
    (upper < lower → samplePrime maxRetries lower upper candidates s = .failed .invalidRange s) ∧
    ∀ (v : Word) (rest : List Word) (t : State), samplePrime maxRetries lower upper candidates s = .done (v, rest) t →
      lower ≤ v.toNat ∧ v.toNat ≤ upper ∧ t.reg 0 = v ∧ t.reg 1 = 1 ∧ 2 ≤ v.toNat ∧ v.toNat ≠ 4

/-- R144 to R147, R151: a key that `generate` returns meets the KeyPair invariant, its primes lie in the sampling range and its exponent in
`[2, φ − 1]`, and `d` in `[0, φ)`; `n` is the exact product, so `p·q` fits `u64`. -/
def Obligations.GeneratedKeyMeetsTheKeyPairInvariant : Prop :=
  ∀ (maxRetries : Option Nat) (lower upper minSeparation : Nat) (candidates : List Word) (s t : State) (k : KeyPair),
    1 ≤ minSeparation → generate maxRetries lower upper minSeparation candidates s = .done k t →
    k.Invariant minSeparation ∧
    (lower ≤ k.p.toNat ∧ k.p.toNat ≤ upper) ∧ (lower ≤ k.q.toNat ∧ k.q.toNat ≤ upper) ∧
    2 ≤ k.e.toNat ∧ (k.e.toNat : Int) ≤ totientOf k.p k.q - 1 ∧ (k.d.toNat : Int) < totientOf k.p k.q

/-- R147: the document's three tests of a key answer, by GCD and MODMUL, exactly the three conditions. -/
def Obligations.KeyTestsAnswerTheThreeConditions : Prop :=
  ∀ (k : KeyPair) (s : State), 0 < totientOf k.p k.q → totientOf k.p k.q < 2 ^ 64 → ∃ (b : Bool) (t : State),
    keyTests k s = .done b t ∧
    (b = true ↔ (k.n.toNat : Int) = modulusOf k.p k.q ∧ Int.gcd k.e.toNat (totientOf k.p k.q) = 1 ∧
      ((k.e.toNat : Int) * k.d.toNat) % totientOf k.p k.q = 1)

/-- R34, R36 (log 9): wherever the platform places the registers, a 64-bit access at the bus address of an index is the access to that
whole register, and one at any address in between, or of another width, is one that R35 refuses. -/
def Obligations.EveryPlacementReachesEveryRegister : Prop :=
  ∀ (placement : Config.BusPlacement) (k : Nat), 0 < placement.stride →
    busAccess placement (busAddress placement k) 64 = some (.whole k) ∧
    ∀ (extra width : Nat), extra < placement.stride → 0 < placement.unitBits → extra ≠ 0 ∨ width ≠ 64 →
      ∃ a : Access, busAccess placement (busAddress placement k + extra) width = some a ∧ a.coversOne = false
end

