-- ==== Sys2Proof/Laws/State.lean ====
section
/-! SUPPORT. One lemma per field per update of the state, so that no later proof unfolds a record update. -/

namespace Sys2Proof.Machine

variable (s : State)

@[simp] theorem State.setReg_cmd (r : Reg) (v : Word) : (s.setReg r v).block.cmd = s.block.cmd := rfl
@[simp] theorem State.setReg_err (r : Reg) (v : Word) : (s.setReg r v).block.err = s.block.err := rfl
@[simp] theorem State.setReg_rounds (r : Reg) (v : Word) : (s.setReg r v).block.rounds = s.block.rounds := rfl
@[simp] theorem State.setReg_char (r : Reg) (v : Word) : (s.setReg r v).block.char = s.block.char := rfl
@[simp] theorem State.setReg_random (r : Reg) (v : Word) : (s.setReg r v).random = s.random := rfl
@[simp] theorem State.setReg_host (r : Reg) (v : Word) : (s.setReg r v).host = s.host := rfl
@[simp] theorem State.setReg_roundCount (r : Reg) (v : Word) : (s.setReg r v).roundCount = s.roundCount := rfl

@[simp] theorem State.setErr_cmd (e : BitVec 8) : (s.setErr e).block.cmd = s.block.cmd := rfl
@[simp] theorem State.setErr_err (e : BitVec 8) : (s.setErr e).block.err = e := rfl
@[simp] theorem State.setErr_rounds (e : BitVec 8) : (s.setErr e).block.rounds = s.block.rounds := rfl
@[simp] theorem State.setErr_char (e : BitVec 8) : (s.setErr e).block.char = s.block.char := rfl
@[simp] theorem State.setErr_random (e : BitVec 8) : (s.setErr e).random = s.random := rfl
@[simp] theorem State.setErr_host (e : BitVec 8) : (s.setErr e).host = s.host := rfl
@[simp] theorem State.setErr_reg (e : BitVec 8) (r : Reg) : (s.setErr e).reg r = s.reg r := rfl
@[simp] theorem State.setErr_src (e : BitVec 8) (r : Reg) : (s.setErr e).src r = s.src r := rfl
@[simp] theorem State.setErr_roundCount (e : BitVec 8) : (s.setErr e).roundCount = s.roundCount := rfl

@[simp] theorem State.setChar_cmd (c : Char8) : (s.setChar c).block.cmd = s.block.cmd := rfl
@[simp] theorem State.setChar_err (c : Char8) : (s.setChar c).block.err = s.block.err := rfl
@[simp] theorem State.setChar_rounds (c : Char8) : (s.setChar c).block.rounds = s.block.rounds := rfl
@[simp] theorem State.setChar_char (c : Char8) : (s.setChar c).block.char = c := rfl
@[simp] theorem State.setChar_random (c : Char8) : (s.setChar c).random = s.random := rfl
@[simp] theorem State.setChar_host (c : Char8) : (s.setChar c).host = s.host := rfl
@[simp] theorem State.setChar_reg (c : Char8) (r : Reg) : (s.setChar c).reg r = s.reg r := rfl
@[simp] theorem State.setChar_src (c : Char8) (r : Reg) : (s.setChar c).src r = s.src r := rfl
@[simp] theorem State.setChar_roundCount (c : Char8) : (s.setChar c).roundCount = s.roundCount := rfl

@[simp] theorem State.setCmd_cmd (v : Word) : (s.setCmd v).block.cmd = v := rfl
@[simp] theorem State.setCmd_err (v : Word) : (s.setCmd v).block.err = s.block.err := rfl
@[simp] theorem State.setCmd_rounds (v : Word) : (s.setCmd v).block.rounds = s.block.rounds := rfl
@[simp] theorem State.setCmd_char (v : Word) : (s.setCmd v).block.char = s.block.char := rfl
@[simp] theorem State.setCmd_random (v : Word) : (s.setCmd v).random = s.random := rfl
@[simp] theorem State.setCmd_host (v : Word) : (s.setCmd v).host = s.host := rfl
@[simp] theorem State.setCmd_reg (v : Word) (r : Reg) : (s.setCmd v).reg r = s.reg r := rfl
@[simp] theorem State.setCmd_src (v : Word) (r : Reg) : (s.setCmd v).src r = s.src r := rfl
@[simp] theorem State.setCmd_roundCount (v : Word) : (s.setCmd v).roundCount = s.roundCount := rfl

@[simp] theorem State.setRounds_cmd (v : Word) : (s.setRounds v).block.cmd = s.block.cmd := rfl
@[simp] theorem State.setRounds_err (v : Word) : (s.setRounds v).block.err = s.block.err := rfl
@[simp] theorem State.setRounds_rounds (v : Word) : (s.setRounds v).block.rounds = v.extractLsb' 0 32 := rfl
@[simp] theorem State.setRounds_char (v : Word) : (s.setRounds v).block.char = s.block.char := rfl
@[simp] theorem State.setRounds_random (v : Word) : (s.setRounds v).random = s.random := rfl
@[simp] theorem State.setRounds_host (v : Word) : (s.setRounds v).host = s.host := rfl
@[simp] theorem State.setRounds_reg (v : Word) (r : Reg) : (s.setRounds v).reg r = s.reg r := rfl
@[simp] theorem State.setRounds_src (v : Word) (r : Reg) : (s.setRounds v).src r = s.src r := rfl

@[simp] theorem State.setRandom_cmd (p : RandomPort) : (s.setRandom p).block.cmd = s.block.cmd := rfl
@[simp] theorem State.setRandom_err (p : RandomPort) : (s.setRandom p).block.err = s.block.err := rfl
@[simp] theorem State.setRandom_rounds (p : RandomPort) : (s.setRandom p).block.rounds = s.block.rounds := rfl
@[simp] theorem State.setRandom_char (p : RandomPort) : (s.setRandom p).block.char = s.block.char := rfl
@[simp] theorem State.setRandom_random (p : RandomPort) : (s.setRandom p).random = p := rfl
@[simp] theorem State.setRandom_host (p : RandomPort) : (s.setRandom p).host = s.host := rfl
@[simp] theorem State.setRandom_reg (p : RandomPort) (r : Reg) : (s.setRandom p).reg r = s.reg r := rfl
@[simp] theorem State.setRandom_src (p : RandomPort) (r : Reg) : (s.setRandom p).src r = s.src r := rfl
@[simp] theorem State.setRandom_roundCount (p : RandomPort) : (s.setRandom p).roundCount = s.roundCount := rfl

@[simp] theorem State.reply_cmd (a : Reply) : (s.reply a).block.cmd = s.block.cmd := rfl
@[simp] theorem State.reply_err (a : Reply) : (s.reply a).block.err = s.block.err := rfl
@[simp] theorem State.reply_rounds (a : Reply) : (s.reply a).block.rounds = s.block.rounds := rfl
@[simp] theorem State.reply_char (a : Reply) : (s.reply a).block.char = s.block.char := rfl
@[simp] theorem State.reply_random (a : Reply) : (s.reply a).random = s.random := rfl
@[simp] theorem State.reply_host (a : Reply) : (s.reply a).host = { s.host with replies := s.host.replies ++ [a] } := rfl
@[simp] theorem State.reply_reg (a : Reply) (r : Reg) : (s.reply a).reg r = s.reg r := rfl
@[simp] theorem State.reply_src (a : Reply) (r : Reg) : (s.reply a).src r = s.src r := rfl
@[simp] theorem State.reply_roundCount (a : Reply) : (s.reply a).roundCount = s.roundCount := rfl

@[simp] theorem State.setInbox_cmd (es : List Event) : (s.setInbox es).block.cmd = s.block.cmd := rfl
@[simp] theorem State.setInbox_err (es : List Event) : (s.setInbox es).block.err = s.block.err := rfl
@[simp] theorem State.setInbox_rounds (es : List Event) : (s.setInbox es).block.rounds = s.block.rounds := rfl
@[simp] theorem State.setInbox_char (es : List Event) : (s.setInbox es).block.char = s.block.char := rfl
@[simp] theorem State.setInbox_random (es : List Event) : (s.setInbox es).random = s.random := rfl
@[simp] theorem State.setInbox_host (es : List Event) : (s.setInbox es).host = { s.host with inbox := es } := rfl
@[simp] theorem State.setInbox_reg (es : List Event) (r : Reg) : (s.setInbox es).reg r = s.reg r := rfl
@[simp] theorem State.setInbox_src (es : List Event) (r : Reg) : (s.setInbox es).src r = s.src r := rfl
@[simp] theorem State.setInbox_roundCount (es : List Event) : (s.setInbox es).roundCount = s.roundCount := rfl

theorem State.setReg_reg (r r' : Reg) (v : Word) : (s.setReg r v).reg r' = if r = r' then v else s.reg r' := by
  simp only [State.setReg, State.reg, Fin.getElem_fin, Vector.getElem_set, Fin.ext_iff]

@[simp] theorem State.setReg_reg_self (r : Reg) (v : Word) : (s.setReg r v).reg r = v := by
  simp [State.setReg_reg]

@[simp] theorem State.setReg_reg_ne {r r' : Reg} (v : Word) (h : r' ≠ r) : (s.setReg r v).reg r' = s.reg r' := by
  simp [State.setReg_reg, Ne.symm h]

theorem State.setReg_src (r r' : Reg) (v : Word) :
    (s.setReg r v).src r' = if r = r' then v.toNat else s.src r' := by
  simp only [State.src, State.setReg_reg]; split <;> rfl

/-- Every source operand is a `u64` (R5). -/
theorem State.src_lt (r : Reg) : s.src r < 2 ^ 64 := (s.reg r).isLt

/-- The round count is at most `2^32 − 1` (R17). -/
theorem State.roundCount_lt : s.roundCount < 2 ^ 32 := s.block.rounds.isLt

@[simp] theorem State.resetBlock_block : s.resetBlock.block = Block.reset := rfl
@[simp] theorem State.resetBlock_random : s.resetBlock.random = s.random := rfl
@[simp] theorem State.resetBlock_host : s.resetBlock.host = s.host := rfl

end Sys2Proof.Machine
end

