-- ==== Sys2Proof/Laws/Ops.lean ====
section
/-! SUPPORT. What each shared operation can do, said once. -/

namespace Sys2Proof.Machine

variable {s t : State}

/-! ### How a command ends -/

theorem State.takeFault_eq (c : Cause) : s.takeFault c = { s with block := { s.block with err := c.code } } := rfl

theorem State.complete_eq (rd : Reg) (r : Nat) :
    s.complete rd r = { s with block := { s.block with x := s.block.x.set rd (BitVec.ofNat 64 r), err := 0 } } := rfl

theorem State.completeChar_eq (rd : Reg) (r : Nat) :
    s.completeChar rd r =
      { s with block := { s.block with x := s.block.x.set rd (BitVec.ofNat 64 r), err := 0, char := charOf r } } := rfl

theorem Cause.code_injective {c d : Cause} (h : c.code = d.code) : c = d := by
  revert h; cases c <;> cases d <;> decide

theorem Cause.code_ne_zero (c : Cause) : c.code ≠ 0 := by cases c <;> decide

theorem Cause.code_le_six (c : Cause) : c.code.toNat ≤ 6 := by cases c <;> decide

@[simp] theorem State.finish_error (rd : Reg) (c : Cause) : s.finish rd (.error c) = s.takeFault c := rfl
@[simp] theorem State.finish_ok (rd : Reg) (r : Nat) : s.finish rd (.ok r) = s.complete rd r := rfl
@[simp] theorem State.finishChar_error (rd : Reg) (c : Cause) : s.finishChar rd (.error c) = s.takeFault c := rfl
@[simp] theorem State.finishChar_ok (rd : Reg) (r : Nat) : s.finishChar rd (.ok r) = s.completeChar rd r := rfl

@[simp] theorem State.finish_random (rd : Reg) (res : Except Cause Nat) : (s.finish rd res).random = s.random := by
  cases res <;> rfl
@[simp] theorem State.finish_host (rd : Reg) (res : Except Cause Nat) : (s.finish rd res).host = s.host := by
  cases res <;> rfl
@[simp] theorem State.finishChar_random (rd : Reg) (res : Except Cause Nat) :
    (s.finishChar rd res).random = s.random := by cases res <;> rfl
@[simp] theorem State.finishChar_host (rd : Reg) (res : Except Cause Nat) : (s.finishChar rd res).host = s.host := by
  cases res <;> rfl

/-- What a command may have done to the state when it has ended (R57, R162): it took one of `causes` and wrote nothing
else, or it completed, wrote `rd` and, only where `writesChar`, `CHAR`. -/
inductive Ended (causes : List Cause) (rd : Reg) (writesChar : Prop) (s t : State) : Prop where
  | faulted (c : Cause) (mem : c ∈ causes) (eq : t.block = { s.block with err := c.code })
  | completed (v : Word) (c : Char8) (char : c ≠ s.block.char → writesChar)
      (eq : t.block = { s.block with x := s.block.x.set rd v, err := 0, char := c })

theorem finish_ended {causes : List Cause} {rd : Reg} {res : Except Cause Nat}
    (h : ∀ c, res = .error c → c ∈ causes) : Ended causes rd False s (s.finish rd res) := by
  cases res with
  | error c => exact .faulted c (h c rfl) rfl
  | ok r => exact .completed (BitVec.ofNat 64 r) s.block.char (fun h => h rfl) rfl

theorem finishChar_ended {causes : List Cause} {rd : Reg} {res : Except Cause Nat}
    (h : ∀ c, res = .error c → c ∈ causes) : Ended causes rd True s (s.finishChar rd res) := by
  cases res with
  | error c => exact .faulted c (h c rfl) rfl
  | ok r => exact .completed (BitVec.ofNat 64 r) (charOf r) (fun _ => trivial) rfl

/-! ### The random-source port -/

@[simp] theorem RandomPort.draw_script (p : RandomPort) (lo hi : Word) : (p.draw lo hi).script = p.script.tail := rfl

@[simp] theorem RandomPort.draw_draws (p : RandomPort) (lo hi : Word) :
    (p.draw lo hi).draws = p.draws ++ [⟨lo, hi, p.nextAnswer⟩] := rfl

@[simp] theorem RandomPort.nextAnswer_cons (a : Answer) (as : List Answer) (ds : List Draw) :
    (RandomPort.mk (a :: as) ds).nextAnswer = a := rfl

@[simp] theorem RandomPort.nextAnswer_nil (ds : List Draw) :
    (RandomPort.mk [] ds).nextAnswer = .value (Config.freeAnswer ds.length) := rfl

@[simp] theorem RandomPort.draw_cons (a : Answer) (as : List Answer) (ds : List Draw) (lo hi : Word) :
    (RandomPort.mk (a :: as) ds).draw lo hi = ⟨as, ds ++ [⟨lo, hi, a⟩]⟩ := rfl

/-- A source that answers gives a value now, and answers after it. -/
theorem RandomPort.Answers.next {p : RandomPort} (h : p.Answers) (lo hi : Word) :
    (∃ v, p.nextAnswer = .value v) ∧ (p.draw lo hi).Answers := by
  obtain ⟨script, ds⟩ := p
  cases script with
  | nil => exact ⟨⟨_, rfl⟩, by simp [RandomPort.Answers]⟩
  | cons a as =>
    simp only [RandomPort.Answers, List.mem_cons, not_or] at h ⊢
    cases a with
    | value v => exact ⟨⟨v, rfl⟩, h.2⟩
    | silence => exact absurd rfl h.1

/-! ### `onNext` -/

@[simp] theorem onNext_next (f : State → State) : onNext f (.next s) = .next (f s) := rfl
@[simp] theorem onNext_fault (f : State → State) (e : Fault) : onNext f (.fault e) = .fault e := rfl
@[simp] theorem onNext_refused (f : State → State) (e : Refusal) : onNext f (.refused e) = .refused e := rfl

theorem onNext_eq_next {f : State → State} {o : Outcome} (h : onNext f o = .next t) :
    ∃ u, o = .next u ∧ t = f u := by
  cases o with
  | next u => exact ⟨u, rfl, by simpa using h.symm⟩
  | fault e => simp at h
  | refused e => simp at h

/-! ### The register map -/

theorem hostRead_reg (r : Reg) : hostRead r.val s = some (s.reg r) := by
  simp [hostRead, r.isLt]

@[simp] theorem hostRead_cmd : hostRead 8 s = some s.block.cmd := rfl
@[simp] theorem hostRead_status : hostRead 9 s = some (s.block.err.setWidth 64) := rfl
@[simp] theorem hostRead_rounds : hostRead 10 s = some (s.block.rounds.setWidth 64) := rfl
@[simp] theorem hostRead_char : hostRead 11 s = some (s.block.char.setWidth 64) := rfl

theorem hostRead_reserved {k : Nat} (h : 12 ≤ k) : hostRead k s = none := by
  unfold hostRead
  rw [dif_neg (by omega), if_neg (by omega), if_neg (by omega), if_neg (by omega), if_neg (by omega)]

end Sys2Proof.Machine
end

