-- ==== Sys2Proof/Laws/Arith.lean ====
section
/-! SUPPORT. The spec lemma of each arithmetic loop: what it computes from any point of its run, and that its fuel is enough
(log 11). Later proofs cite these and unfold no loop. -/

namespace Sys2Proof.Machine

/-! ### Square and multiply (R81) -/

/-- From `(r, b, e)` with `e < 2^fuel` the loop returns `r·b^e mod m`. -/
theorem modexpLoop_spec {m : Nat} (fuel : Nat) : ∀ {r b e : Nat}, e < 2 ^ fuel → r < m →
    modexpLoop m fuel r b e = r * b ^ e % m := by
  induction fuel with
  | zero =>
    intro r b e he hr
    obtain rfl : e = 0 := by omega
    simp [modexpLoop, Nat.mod_eq_of_lt hr]
  | succ k ih =>
    intro r b e he hr
    unfold modexpLoop
    split
    · next h => subst h; simp [Nat.mod_eq_of_lt hr]
    · have hm : 0 < m := by omega
      have hk : e / 2 < 2 ^ k := by rw [pow_succ] at he; omega
      have hsq (x : Nat) : x * (b * b % m) ^ (e / 2) % m = x * b ^ (2 * (e / 2)) % m := by
        rw [Nat.mul_mod, ← Nat.pow_mod, ← Nat.mul_mod, pow_mul, pow_two]
      split
      · next h =>
        simp only [modmul]
        rw [ih hk (Nat.mod_lt _ hm), hsq, Nat.mod_mul_mod, mul_assoc, ← pow_succ']
        congr 3; omega
      · next h =>
        simp only [modmul]
        rw [ih hk hr, hsq]
        congr 3; omega

/-! ### Euclid (R90, R94) -/

/-- The remainder sequence ends within `fuel` iterations once `r1 ≤ r0` and `r0·r1 < 2^(fuel − 1)` (R199). -/
theorem gcdLoop_of_le (fuel : Nat) : ∀ {a b : Nat}, b ≤ a → a * b < 2 ^ fuel →
    gcdLoop (fuel + 1) a b = Nat.gcd a b := by
  induction fuel with
  | zero =>
    intro a b hle h
    obtain rfl : b = 0 := by
      rcases Nat.eq_zero_or_pos b with h0 | h0
      · exact h0
      · have := Nat.mul_pos (Nat.lt_of_lt_of_le h0 hle) h0; omega
    simp [gcdLoop]
  | succ k ih =>
    intro a b hle h
    unfold gcdLoop
    split
    · next hb => simp [hb]
    · next hb =>
      rw [ih (Nat.mod_lt a (by omega)).le]
      · rw [Nat.gcd_comm b, ← Nat.gcd_rec, Nat.gcd_comm]
      · have h1 : 2 * (a % b) ≤ a := by
          have h3 := Nat.div_add_mod a b
          have h4 : 1 ≤ a / b := Nat.div_pos hle (by omega)
          have h5 := Nat.mod_lt a (show 0 < b by omega)
          nlinarith
        have : b * (2 * (a % b)) ≤ b * a := Nat.mul_le_mul_left b h1
        rw [pow_succ] at h
        nlinarith

/-- One step more than `gcdLoop_of_le` needs: when `a < b` the first iteration swaps the pair (R91). -/
theorem gcdLoop_spec (fuel : Nat) {a b : Nat} (h : a * b < 2 ^ fuel) :
    gcdLoop (fuel + 2) a b = Nat.gcd a b := by
  unfold gcdLoop
  split
  · next hb => simp [hb]
  · next hb =>
    rcases Nat.lt_or_ge a b with hlt | hge
    · rw [Nat.mod_eq_of_lt hlt, gcdLoop_of_le fuel hlt.le (by rwa [Nat.mul_comm]), Nat.gcd_comm]
    · rw [gcdLoop_of_le fuel (Nat.mod_lt a (by omega)).le, Nat.gcd_comm b, ← Nat.gcd_rec, Nat.gcd_comm]
      have : a % b ≤ a := Nat.mod_le a b
      nlinarith

/-- The remainder that MODINV's loop ends with is the one GCD's loop ends with (R199 "same remainder sequence"). -/
theorem modinvLoop_fst (fuel : Nat) : ∀ (r0 r1 : Nat) (s0 s1 : Int),
    (modinvLoop fuel r0 r1 s0 s1).1 = gcdLoop fuel r0 r1 := by
  induction fuel with
  | zero => intros; rfl
  | succ k ih =>
    intro r0 r1 s0 s1
    unfold modinvLoop gcdLoop
    split
    · rfl
    · exact ih ..

/-- R94's invariant: `r0 ≡ s0·a` and `r1 ≡ s1·a (mod m)`, so the final coefficient `s0` has `s0·a ≡ r0`. -/
theorem modinvLoop_congr {a m : Int} (fuel : Nat) : ∀ {r0 r1 : Nat} {s0 s1 : Int},
    s0 * a ≡ r0 [ZMOD m] → s1 * a ≡ r1 [ZMOD m] →
    (modinvLoop fuel r0 r1 s0 s1).2 * a ≡ (modinvLoop fuel r0 r1 s0 s1).1 [ZMOD m] := by
  induction fuel with
  | zero => intro r0 r1 s0 s1 h0 _; exact h0
  | succ k ih =>
    intro r0 r1 s0 s1 h0 h1
    unfold modinvLoop
    split
    · exact h0
    · apply ih h1
      have key : ((r0 % r1 : Nat) : Int) = r0 - (r0 / r1 : Nat) * r1 := by
        have h2 : (r1 : Int) * (r0 / r1 : Nat) + (r0 % r1 : Nat) = r0 := by exact_mod_cast Nat.div_add_mod r0 r1
        linarith
      rw [key, sub_mul, mul_assoc]
      exact h0.sub (h1.mul_left _)

/-- The size of the coefficients (R95): `|s0|·r1 + |s1|·r0 = m` all along the run, and the coefficients alternate in
sign, so that no coefficient exceeds `m` in absolute value. -/
theorem modinvLoop_natAbs_le {m : Nat} (fuel : Nat) : ∀ {r0 r1 : Nat} {s0 s1 : Int},
    s0.natAbs * r1 + s1.natAbs * r0 = m → s0 * s1 ≤ 0 → s0.natAbs ≤ m → s1.natAbs ≤ m →
    (modinvLoop fuel r0 r1 s0 s1).2.natAbs ≤ m := by
  induction fuel with
  | zero => intro _ _ _ _ _ _ h _; exact h
  | succ k ih =>
    intro r0 r1 s0 s1 hm hs h0 h1
    unfold modinvLoop
    split
    · exact h0
    · next hr =>
      have habs : (s0 - (r0 / r1 : Nat) * s1).natAbs = s0.natAbs + r0 / r1 * s1.natAbs := by
        have hq : s0 * ((r0 / r1 : Nat) * s1) ≤ 0 := by
          rw [mul_left_comm]; exact mul_nonpos_of_nonneg_of_nonpos (Int.natCast_nonneg _) hs
        have : ((r0 / r1 : Nat) * s1).natAbs = r0 / r1 * s1.natAbs := by rw [Int.natAbs_mul, Int.natAbs_natCast]
        rw [← this]
        rcases mul_nonpos_iff.mp hq with ⟨ha, hb⟩ | ⟨ha, hb⟩ <;> omega
      have hinv : s1.natAbs * (r0 % r1) + (s0 - (r0 / r1 : Nat) * s1).natAbs * r1 = m := by
        rw [habs, ← hm]
        conv_rhs => rw [← Nat.div_add_mod r0 r1]
        ring
      refine ih hinv ?_ h1 ?_
      · rw [mul_sub, mul_comm s1 s0, mul_left_comm]
        have := mul_nonneg (Int.natCast_nonneg (r0 / r1)) (mul_self_nonneg s1)
        linarith
      · exact le_trans (Nat.le_mul_of_pos_right _ (Nat.pos_of_ne_zero hr)) (le_trans (Nat.le_add_left _ _) hinv.le)

/-! ### The functions on `u64` operands -/

theorem modexp_eq {base exponent modulus : Nat} (he : exponent < 2 ^ 64) (hm : 0 < modulus) :
    modexp base exponent modulus = base ^ exponent % modulus := by
  rw [modexp, modexpLoop_spec Config.modexpIterations he (Nat.mod_lt _ hm), Nat.mod_mul_mod, one_mul, ← Nat.pow_mod]

theorem euclidGcd_eq {a b : Nat} (ha : a < 2 ^ 64) (hb : b < 2 ^ 64) : euclidGcd a b = Nat.gcd a b :=
  gcdLoop_spec 128 (lt_of_lt_of_eq (Nat.mul_lt_mul'' ha hb) (by norm_num))

theorem modinv_degenerate {a m : Nat} (h : m ≤ 1) : modinv a m = .error .degenerateModulus := if_pos h

theorem modinv_notInvertible {a m : Nat} (ha : a < 2 ^ 64) (hm : m < 2 ^ 64) (h2 : 2 ≤ m) (hg : Nat.gcd a m ≠ 1) :
    modinv a m = .error .notInvertible := by
  have h1 := modinvLoop_fst Config.euclidIterations a m 1 0
  rw [show gcdLoop Config.euclidIterations a m = _ from euclidGcd_eq ha hm] at h1
  rw [modinv, if_neg (by omega), modinvEnd, if_pos (by rw [h1]; exact hg)]

theorem modinv_ok {a m : Nat} (ha : a < 2 ^ 64) (hm : m < 2 ^ 64) (h2 : 2 ≤ m) (hg : Nat.gcd a m = 1) :
    ∃ d, modinv a m = .ok d ∧ d < m ∧ a * d % m = 1 := by
  have h1 := modinvLoop_fst Config.euclidIterations a m 1 0
  rw [show gcdLoop Config.euclidIterations a m = _ from euclidGcd_eq ha hm, hg] at h1
  have h3 := modinvLoop_congr (a := a) (m := m) Config.euclidIterations (r0 := a) (r1 := m) (s0 := 1) (s1 := 0)
    (by rw [one_mul]) (by simp [Int.ModEq])
  have h4 := modinvLoop_natAbs_le (m := m) Config.euclidIterations (r0 := a) (r1 := m) (s0 := 1) (s1 := 0)
    (by simp) (by simp) (by simpa using (by omega : 1 ≤ m)) (by simp)
  refine ⟨normalise (modinvLoop Config.euclidIterations a m 1 0).2 m, ?_, ?_⟩
  · rw [modinv, if_neg (by omega), modinvEnd, if_neg (by rw [h1]; simp)]
  · rw [h1] at h3
    generalize (modinvLoop Config.euclidIterations a m 1 0).2 = s at h3 h4
    have hm0 : (m : Int) ≠ 0 := by omega
    have hne : ¬ (m : Int) ∣ s := by
      intro hd
      have h5 : (m : Int) ∣ 1 := (Int.ModEq.dvd (h3.symm.trans ((Int.modEq_zero_iff_dvd.mpr hd).mul_right _))).trans
        (by simp)
      have := Int.le_of_dvd one_pos h5
      omega
    have hlt : s ≠ m ∧ s ≠ -m := ⟨fun h => hne (by simp [h]), fun h => hne (by simp [h])⟩
    have hnn : ((normalise s m : Nat) : Int) = if s < 0 then s + m else s := by
      unfold normalise; rw [Int.toNat_of_nonneg]; split <;> omega
    have hcong : (normalise s m : Int) ≡ s [ZMOD m] := by
      rw [hnn]; split
      · simp [Int.ModEq]
      · rfl
    constructor
    · zify; rw [hnn]; split <;> omega
    · have h6 : (a * normalise s m : Int) ≡ 1 [ZMOD m] := by
        rw [mul_comm]; exact (hcong.mul_right _).trans h3
      have h7 : a * normalise s m ≡ 1 [MOD m] := by exact_mod_cast h6
      rw [h7, Nat.mod_eq_of_lt (by omega)]

/-- R95: the inverse in `[0, m)` is unique, so whatever `modinv` answers is it. -/
theorem modinv_eq_ok {a m d : Nat} (ha : a < 2 ^ 64) (hm : m < 2 ^ 64) (hd : d < m) (h : a * d % m = 1) :
    modinv a m = .ok d := by
  have h2 : 2 ≤ m := by
    by_contra hlt
    obtain rfl | rfl : m = 0 ∨ m = 1 := by omega
    · omega
    · simp [Nat.mod_one] at h
  have hone : a * d ≡ 1 [MOD m] := by rw [Nat.ModEq, h, Nat.mod_eq_of_lt (by omega)]
  have hg : Nat.gcd a m = 1 := Nat.coprime_of_mul_modEq_one d hone
  obtain ⟨d', h1, h3, h4⟩ := modinv_ok ha hm h2 hg
  have hone' : a * d' ≡ 1 [MOD m] := by rw [Nat.ModEq, h4, Nat.mod_eq_of_lt (by omega)]
  have : a * d ≡ a * d' [MOD m] := hone.trans hone'.symm
  have := Nat.ModEq.cancel_left_of_coprime (by rw [Nat.gcd_comm]; exact hg) this
  rw [h1, Nat.ModEq.eq_of_lt_of_lt this hd h3]

/-! ### CRT recombination (R130, R132) -/

theorem crtCoefficient_lt {qInv m1 m2 p : Nat} (hp : 0 < p) : crtCoefficient qInv m1 m2 p < p := by
  unfold crtCoefficient
  have := Int.emod_nonneg ((qInv : Int) * ((m1 : Int) - m2 + p)) (b := (p : Int)) (by omega)
  have := Int.emod_lt_of_pos ((qInv : Int) * ((m1 : Int) - m2 + p)) (b := (p : Int)) (by omega)
  omega

/-- The coefficient undoes the difference: `h·q ≡ m1 − m2 (mod p)` (R132). -/
theorem crtCoefficient_mul {qInv m1 m2 p q : Nat} (hp : 2 ≤ p) (hq : q * qInv % p = 1) :
    (m2 + crtCoefficient qInv m1 m2 p * q) % p = m1 % p := by
  have h1 : (q * qInv : Int) ≡ 1 [ZMOD p] := by
    have h : q * qInv ≡ 1 [MOD p] := by rw [Nat.ModEq, hq, Nat.mod_eq_of_lt (by omega)]
    exact_mod_cast Int.natCast_modEq_iff.mpr h
  have h2 : (crtCoefficient qInv m1 m2 p : Int) ≡ qInv * (m1 - m2 + p) [ZMOD p] := by
    unfold crtCoefficient
    rw [Int.toNat_of_nonneg (Int.emod_nonneg _ (by omega))]
    exact Int.mod_modEq _ _
  have h3 : (m2 + crtCoefficient qInv m1 m2 p * q : Int) ≡ m1 [ZMOD p] := by
    calc (m2 + crtCoefficient qInv m1 m2 p * q : Int)
        ≡ m2 + qInv * (m1 - m2 + p) * q [ZMOD p] := (h2.mul_right _).add_left _
      _ = m2 + (q * qInv) * (m1 - m2 + p) := by ring
      _ ≡ m2 + 1 * (m1 - m2 + p) [ZMOD p] := (h1.mul_right _).add_left _
      _ = m1 + p := by ring
      _ ≡ m1 [ZMOD p] := by simp [Int.ModEq]
  exact Int.natCast_modEq_iff.mp (by exact_mod_cast h3)

end Sys2Proof.Machine
end

