-- ==== Sys2Proof/Laws/Decode.lean ====
section
/-! SUPPORT. The fields of an assembled word (R50), the word of cut fields, and the masks of R52 on fields. -/

namespace Sys2Proof

theorem regOfBits_bitsOfReg (r : Reg) : regOfBits (bitsOfReg r) = r := rfl

theorem bitsOfReg_regOfBits (b : BitVec 3) : bitsOfReg (regOfBits b) = b := rfl

theorem bitsOfReg_toNat (r : Reg) : (bitsOfReg r).toNat = r.val := rfl

/-- The number of an assembled word: `opcode | rd<<8 | rs1<<11 | rs2<<14 | rs3<<17 | rs4<<20` (R59). -/
theorem assembleWord_toNat (rs4 rs3 rs2 rs1 rd : Reg) (op : BitVec 8) :
    (assembleWord rs4 rs3 rs2 rs1 rd op).toNat =
      op.toNat + rd.val * 2 ^ 8 + rs1.val * 2 ^ 11 + rs2.val * 2 ^ 14 + rs3.val * 2 ^ 17 + rs4.val * 2 ^ 20 := by
  have h {m n : Nat} (x : BitVec m) (y : BitVec n) : (x ++ y).toNat = x.toNat * 2 ^ n + y.toNat := by
    rw [BitVec.toNat_append, ← Nat.shiftLeft_add_eq_or_of_lt y.isLt, Nat.shiftLeft_eq]
  have e : (assembleWord rs4 rs3 rs2 rs1 rd op).toNat =
      ((0 : BitVec 9) ++ bitsOfReg rs4 ++ bitsOfReg rs3 ++ bitsOfReg rs2 ++ bitsOfReg rs1 ++ bitsOfReg rd ++ op).toNat := rfl
  rw [e, h, h, h, h, h, h]
  simp only [bitsOfReg_toNat]
  have : (0 : BitVec 9).toNat = 0 := rfl
  omega

/-- A bit slice as a number. -/
theorem toNat_slice (v : Word) (start len : Nat) : (v.extractLsb' start len).toNat = v.toNat / 2 ^ start % 2 ^ len := by
  rw [BitVec.extractLsb'_toNat, Nat.shiftRight_eq_div_pow]

/-- Cutting an assembled word gives back its fields. -/
theorem splitFields_assembleWord (rs4 rs3 rs2 rs1 rd : Reg) (op : BitVec 8) :
    splitFields ((assembleWord rs4 rs3 rs2 rs1 rd op).setWidth 64) =
      { hi := 0, zero := 0, rs4 := bitsOfReg rs4, rs3 := bitsOfReg rs3, rs2 := bitsOfReg rs2,
        rs1 := bitsOfReg rs1, rd := bitsOfReg rd, opcode := op } := by
  have hw := assembleWord_toNat rs4 rs3 rs2 rs1 rd op
  have h0 := op.isLt
  have h1 := rd.isLt; have h2 := rs1.isLt; have h3 := rs2.isLt; have h4 := rs3.isLt; have h5 := rs4.isLt
  have hv : ((assembleWord rs4 rs3 rs2 rs1 rd op).setWidth 64).toNat = (assembleWord rs4 rs3 rs2 rs1 rd op).toNat := by
    rw [BitVec.toNat_setWidth, Nat.mod_eq_of_lt]; omega
  rw [hw] at hv
  simp only [splitFields, Fields.mk.injEq]
  refine ⟨?_, ?_, ?_, ?_, ?_, ?_, ?_, ?_⟩ <;> apply BitVec.eq_of_toNat_eq <;>
    rw [toNat_slice, hv] <;>
    (try simp only [bitsOfReg_toNat, show (0 : BitVec 9).toNat = 0 from rfl, show (0 : BitVec 32).toNat = 0 from rfl]) <;>
    omega

/-- A value whose upper half and `zero` field are 0 is the assembly of its fields. -/
theorem assembleWord_splitFields {v : Word} (hhi : (splitFields v).hi = 0) (hz : (splitFields v).zero = 0) :
    v = (assembleWord (regOfBits (splitFields v).rs4) (regOfBits (splitFields v).rs3) (regOfBits (splitFields v).rs2)
      (regOfBits (splitFields v).rs1) (regOfBits (splitFields v).rd) (splitFields v).opcode).setWidth 64 := by
  have hr (b : BitVec 3) : (regOfBits b).val = b.toNat := rfl
  have hhi' := congrArg BitVec.toNat hhi
  have hz' := congrArg BitVec.toNat hz
  have hv := v.isLt
  apply BitVec.eq_of_toNat_eq
  rw [BitVec.toNat_setWidth, assembleWord_toNat]
  simp only [splitFields, hr, toNat_slice] at hhi' hz' ⊢
  simp only [show (0 : BitVec 9).toNat = 0 from rfl, show (0 : BitVec 32).toNat = 0 from rfl] at hhi' hz'
  omega

/-- An assembled value is legal when its word is the command of some row (R52): its upper half is 0. -/
theorem legalCommand_assembleWord (rs4 rs3 rs2 rs1 rd : Reg) (op : BitVec 8) :
    legalCommand ((assembleWord rs4 rs3 rs2 rs1 rd op).setWidth 64) =
      opcodeRows.any (·.matches (assembleWord rs4 rs3 rs2 rs1 rd op)) := by
  have h1 := congrArg Fields.hi (splitFields_assembleWord rs4 rs3 rs2 rs1 rd op)
  simp only [splitFields] at h1
  have h2 : ((assembleWord rs4 rs3 rs2 rs1 rd op).setWidth 64).extractLsb' 0 32 = assembleWord rs4 rs3 rs2 rs1 rd op := by
    apply BitVec.eq_of_toNat_eq
    rw [toNat_slice, BitVec.toNat_setWidth]
    have := (assembleWord rs4 rs3 rs2 rs1 rd op).isLt
    omega
  rw [legalCommand, h1, h2]
  simp

/-- An assembled word under a mask that keeps the opcode, the `zero` field and whole register fields. -/
theorem assembleWord_and (rs4 rs3 rs2 rs1 rd : Reg) (op : BitVec 8) (m4 m3 m2 m1 md : BitVec 3) :
    assembleWord rs4 rs3 rs2 rs1 rd op &&&
      ((0x1FF : BitVec 9) ++ m4 ++ m3 ++ m2 ++ m1 ++ md ++ (0xFF : BitVec 8) : BitVec (9 + 3 + 3 + 3 + 3 + 3 + 8)) =
    ((0 : BitVec 9) ++ (bitsOfReg rs4 &&& m4) ++ (bitsOfReg rs3 &&& m3) ++ (bitsOfReg rs2 &&& m2) ++
      (bitsOfReg rs1 &&& m1) ++ (bitsOfReg rd &&& md) ++ op : BitVec (9 + 3 + 3 + 3 + 3 + 3 + 8)) := by
  have e : assembleWord rs4 rs3 rs2 rs1 rd op =
      ((0 : BitVec 9) ++ bitsOfReg rs4 ++ bitsOfReg rs3 ++ bitsOfReg rs2 ++ bitsOfReg rs1 ++ bitsOfReg rd ++ op :
        BitVec (9 + 3 + 3 + 3 + 3 + 3 + 8)) := rfl
  rw [e, BitVec.and_append, BitVec.and_append, BitVec.and_append, BitVec.and_append, BitVec.and_append, BitVec.and_append]
  have h8 : op &&& 0xFF = op := BitVec.and_allOnes
  have h9 : (0 : BitVec 9) &&& 0x1FF = 0 := rfl
  rw [h8, h9]

end Sys2Proof
end

