-- ==== Sys2Proof/Laws/Fermat.lean ====
section
/-! SUPPORT. What the rounds loop of ISPRIME does to the random-source port, and how it can end. -/

namespace Sys2Proof.Machine

@[simp] theorem RandomPort.drawWitness_draws (p : RandomPort) (n : Nat) :
    (p.drawWitness n).draws = p.draws ++ [witnessRequest n p.nextAnswer] := rfl

@[simp] theorem RandomPort.drawWitness_cons (n : Nat) (a : Answer) (as : List Answer) (ds : List Draw) :
    (RandomPort.mk (a :: as) ds).drawWitness n = ⟨as, ds ++ [witnessRequest n a]⟩ := rfl

theorem fermatRound_silence (n : Nat) : fermatRound n .silence = some .unanswered := rfl

/-- The modulus and the exponent of a round are `u64`s, so `modexp` is the power (R80, R113). -/
theorem fermatRound_pass {n : Nat} (h5 : 5 ≤ n) (hn : n < 2 ^ 64) {a : Word} (h : InRange n a) :
    fermatRound n (.value a) = if Passes n a then none else some (.verdict false) := by
  have hm : modexp a.toNat (n - 1) n = a.toNat ^ (n - 1) % n := modexp_eq (by omega) (by omega)
  have hr : ¬ (a.toNat < 2 ∨ n - 2 < a.toNat) := by have := h.1; have := h.2; omega
  simp only [fermatRound, hm, if_neg hr, Passes, ne_eq, ite_not]

theorem fermatRound_outOfRange {n : Nat} {a : Word} (h : a.toNat < 2 ∨ n - 2 < a.toNat) :
    fermatRound n (.value a) = some .outOfRange := if_pos h

/-- A round that ends the test ends it in one of three ways; none of them is "probably prime". -/
theorem fermatRound_ne_true (n : Nat) (a : Answer) : fermatRound n a ≠ some (.verdict true) := by
  cases a with
  | silence => simp [fermatRound]
  | value v => simp only [fermatRound]; split <;> [simp; (split <;> simp)]

/-- The loop appends requests `Draw(2, n − 2)`, at most one a round, and truncated to `made` rounds it makes the first
`made` of them (R113, R117, R191). -/
theorem fermatRounds_draws (n rounds : Nat) : ∀ p : RandomPort, ∃ ds : List Draw,
    (fermatRounds n rounds p).2.draws = p.draws ++ ds ∧ ds.length ≤ rounds ∧
    (∀ d ∈ ds, ∃ a : Answer, d = witnessRequest n a) ∧
    ∀ made : Nat, (fermatRounds n (min made rounds) p).2.draws = p.draws ++ ds.take made := by
  induction rounds with
  | zero => intro p; exact ⟨[], by simp [fermatRounds]⟩
  | succ k ih =>
    intro p
    obtain ⟨ds, h1, h2, h3, h4⟩ := ih (p.drawWitness n)
    have hmin (made : Nat) : min (made + 1) (k + 1) = min made k + 1 := by omega
    cases hr : fermatRound n p.nextAnswer with
    | some e =>
      refine ⟨[witnessRequest n p.nextAnswer], ?_, by simp, fun d hd => ⟨_, by simpa using hd⟩, ?_⟩
      · simp [fermatRounds, hr]
      · intro made
        cases made with
        | zero => simp [fermatRounds]
        | succ m => simp [hmin, fermatRounds, hr]
    | none =>
      refine ⟨witnessRequest n p.nextAnswer :: ds, ?_, by simpa using h2, ?_, ?_⟩
      · simp [fermatRounds, hr, h1]
      · intro d hd
        rcases List.mem_cons.mp hd with rfl | h
        · exact ⟨_, rfl⟩
        · exact h3 d h
      · intro made
        cases made with
        | zero => simp [fermatRounds]
        | succ m => rw [hmin]; simp [fermatRounds, hr, h4]

/-- With a source that answers, the loop is not left waiting, and the source still answers. -/
theorem fermatRounds_answers (n rounds : Nat) : ∀ p : RandomPort, p.Answers →
    (fermatRounds n rounds p).1 ≠ .unanswered ∧ (fermatRounds n rounds p).2.Answers := by
  induction rounds with
  | zero => intro p h; exact ⟨by simp [fermatRounds], h⟩
  | succ k ih =>
    intro p h
    obtain ⟨⟨v, hv⟩, hd⟩ := h.next 2 (BitVec.ofNat 64 (n - 2))
    unfold fermatRounds
    rw [hv]
    split
    · next e he =>
      refine ⟨?_, hd⟩
      rintro rfl
      simp only [fermatRound] at he
      split at he <;> [simp at he; (split at he <;> simp at he)]
    · exact ih _ hd

/-- Rounds whose scripted witnesses are in range and pass are used up, one draw each, and the loop goes on. -/
theorem fermatRounds_good {n : Nat} (h5 : 5 ≤ n) (hn : n < 2 ^ 64) (rest : List Answer) :
    ∀ (good : List Word) (rounds : Nat) (ds : List Draw), (∀ a ∈ good, InRange n a ∧ Passes n a) →
    fermatRounds n (good.length + rounds) ⟨good.map .value ++ rest, ds⟩ =
      fermatRounds n rounds ⟨rest, ds ++ answeredDraws n good⟩ := by
  intro good
  induction good with
  | nil => intro rounds ds _; simp [answeredDraws]
  | cons a as ih =>
    intro rounds ds h
    have ha := h a (by simp)
    rw [show (a :: as).length + rounds = (as.length + rounds) + 1 by simp; omega]
    simp only [fermatRounds, List.map_cons, List.cons_append, RandomPort.nextAnswer_cons,
      fermatRound_pass h5 hn ha.1, if_pos ha.2, RandomPort.drawWitness_cons]
    rw [ih _ _ fun b hb => h b (by simp [hb])]
    simp [answeredDraws]

/-- For `n ≥ 5` the test is its rounds loop (R111). -/
theorem fermat_of_five_le {n : Nat} (h5 : 5 ≤ n) (rounds : Nat) (p : RandomPort) :
    fermat n rounds p = fermatRounds n rounds p := by
  rw [fermat, if_neg (by omega), if_neg (by omega), if_neg (by omega)]

/-- For `n ≤ 4` there is no draw (R111). -/
theorem fermat_of_le_four {n : Nat} (h4 : n ≤ 4) (rounds : Nat) (p : RandomPort) :
    fermat n rounds p = (.verdict (decide (n = 2 ∨ n = 3)), p) := by
  have : n = 0 ∨ n = 1 ∨ n = 2 ∨ n = 3 ∨ n = 4 := by omega
  rcases this with rfl | rfl | rfl | rfl | rfl <;> rfl

/-- What `fermat` does to the port, for every `n` (R117). -/
theorem fermat_draws (n rounds : Nat) (p : RandomPort) : ∃ ds : List Draw,
    (fermat n rounds p).2.draws = p.draws ++ ds ∧ ds.length ≤ rounds ∧
    (∀ d ∈ ds, 5 ≤ n ∧ ∃ a : Answer, d = witnessRequest n a) ∧
    ∀ made : Nat, (fermat n (min made rounds) p).2.draws = p.draws ++ ds.take made := by
  rcases Nat.lt_or_ge 4 n with h | h
  · obtain ⟨ds, h1, h2, h3, h4⟩ := fermatRounds_draws n rounds p
    refine ⟨ds, by rwa [fermat_of_five_le h], h2, fun d hd => ⟨h, h3 d hd⟩, fun made => ?_⟩
    rw [fermat_of_five_le h]; exact h4 made
  · exact ⟨[], by simp [fermat_of_le_four h]⟩

theorem fermat_answers (n rounds : Nat) (p : RandomPort) (hp : p.Answers) :
    (fermat n rounds p).1 ≠ .unanswered ∧ (fermat n rounds p).2.Answers := by
  rcases Nat.lt_or_ge 4 n with h | h
  · rw [fermat_of_five_le h]; exact fermatRounds_answers n rounds p hp
  · rw [fermat_of_le_four h]; exact ⟨by simp, hp⟩

/-- The next answer is the head of the script, else the free value of the number of draws made (log 2). -/
theorem RandomPort.nextAnswer_eq (p : RandomPort) :
    p.nextAnswer = (p.script[0]?).getD (.value (Config.freeAnswer p.draws.length)) := by
  obtain ⟨script, ds⟩ := p
  cases script <;> rfl

/-- How the rounds loop ends, from any port, in terms of the answers it got (R110, R113, R115, R117). -/
def RoundsOutcome (n rounds : Nat) (answers : List Word) (e : FermatEnd) : Prop :=
  (answers.length = rounds ∧ (∀ a ∈ answers, InRange n a ∧ Passes n a) ∧ e = .verdict true) ∨
  ∃ (good : List Word) (last : Word), answers = good ++ [last] ∧ good.length < rounds ∧
    (∀ a ∈ good, InRange n a ∧ Passes n a) ∧
    ((InRange n last ∧ ¬ Passes n last ∧ e = .verdict false) ∨ (¬ InRange n last ∧ e = .outOfRange))

/-- A passed round before the rest. -/
theorem RoundsOutcome.cons {n rounds : Nat} {answers : List Word} {e : FermatEnd} {a : Word} (hr : InRange n a)
    (hp : Passes n a) (h : RoundsOutcome n rounds answers e) : RoundsOutcome n (rounds + 1) (a :: answers) e := by
  rcases h with ⟨hl, hall, he⟩ | ⟨good, last, rfl, hlt, hall, hend⟩
  · exact .inl ⟨by simp [hl], by simpa using ⟨⟨hr, hp⟩, hall⟩, he⟩
  · exact .inr ⟨a :: good, last, rfl, by simpa using hlt, by simpa using ⟨⟨hr, hp⟩, hall⟩, hend⟩

/-- A round that got a value passes, or ends the test as its last one (R113, R115). -/
theorem fermatRound_value {n : Nat} (h5 : 5 ≤ n) (hn : n < 2 ^ 64) (a : Word) :
    (fermatRound n (.value a) = none ∧ InRange n a ∧ Passes n a) ∨
    ∃ e, fermatRound n (.value a) = some e ∧ ∀ rounds, RoundsOutcome n (rounds + 1) [a] e := by
  by_cases hr : InRange n a
  · rw [fermatRound_pass h5 hn hr]
    by_cases hp : Passes n a
    · exact .inl ⟨if_pos hp, hr, hp⟩
    · exact .inr ⟨_, if_neg hp, fun _ => .inr ⟨[], a, rfl, by simp, by simp, .inl ⟨hr, hp, rfl⟩⟩⟩
  · refine .inr ⟨_, fermatRound_outOfRange (by simp only [InRange, not_and_or] at hr; omega), fun _ => ?_⟩
    exact .inr ⟨[], a, rfl, by simp, by simp, .inr ⟨hr, rfl⟩⟩

/-- The loop, when it is not left waiting, has got a list of answers, the next of the port, that decides how it ended. -/
theorem fermatRounds_outcome {n : Nat} (h5 : 5 ≤ n) (hn : n < 2 ^ 64) (rounds : Nat) : ∀ p : RandomPort,
    (fermatRounds n rounds p).1 ≠ .unanswered → ∃ answers : List Word,
    (fermatRounds n rounds p).2.draws = p.draws ++ answeredDraws n answers ∧
    (fermatRounds n rounds p).2.script = p.script.drop answers.length ∧
    (∀ (k : Nat) (h : k < answers.length), Answer.value answers[k] =
      (p.script[k]?).getD (.value (Config.freeAnswer (p.draws.length + k)))) ∧
    RoundsOutcome n rounds answers (fermatRounds n rounds p).1 := by
  induction rounds with
  | zero => intro p _; exact ⟨[], by simp [fermatRounds, answeredDraws], by simp [fermatRounds], by simp,
      .inl ⟨rfl, by simp, rfl⟩⟩
  | succ k ih =>
    intro p hne
    have hnext := p.nextAnswer_eq
    cases ha : p.nextAnswer with
    | silence => simp [fermatRounds, ha, fermatRound] at hne
    | value a =>
      rw [ha] at hnext
      rcases fermatRound_value h5 hn a with ⟨hr, hin, hp⟩ | ⟨e, hr, hout⟩
      · have hrest : fermatRounds n (k + 1) p = fermatRounds n k (p.drawWitness n) := by simp [fermatRounds, ha, hr]
        rw [hrest] at hne ⊢
        obtain ⟨answers, h1, h2, h3, h4⟩ := ih _ hne
        refine ⟨a :: answers, ?_, ?_, ?_, h4.cons hin hp⟩
        · simp [h1, ha, answeredDraws]
        · rw [h2]; simp [RandomPort.drawWitness]
        · intro j hj
          cases j with
          | zero => simpa using hnext
          | succ i =>
            have := h3 i (by simpa using hj)
            simpa [RandomPort.drawWitness, Nat.add_assoc, Nat.add_comm 1] using this
      · have hend : fermatRounds n (k + 1) p = (e, p.drawWitness n) := by simp [fermatRounds, ha, hr]
        rw [hend]
        refine ⟨[a], by simp [ha, answeredDraws], by simp [RandomPort.drawWitness], ?_, hout k⟩
        intro j hj
        obtain rfl : j = 0 := by simpa using hj
        simpa using hnext

end Sys2Proof.Machine
end

