-- ==== Sys2Proof/Laws/Commands.lean ====
section
/-! SUPPORT. What a command, a write to `CMD` and an event can do, each said once: the invariants and frames cite these
and unfold no meaning. -/

namespace Sys2Proof.Machine

variable {s t : State}

theorem modmulCommand_causes {a b m : Nat} {c : Cause} (h : modmulCommand a b m = .error c) : c = .modulusZero := by
  unfold modmulCommand at h; split at h <;> simp at h; exact h.symm

theorem modexpCommand_causes {a b m : Nat} {c : Cause} (h : modexpCommand a b m = .error c) : c = .modulusZero := by
  unfold modexpCommand at h; split at h <;> simp at h; exact h.symm

theorem modinv_causes {a m : Nat} {c : Cause} (h : modinv a m = .error c) :
    c = .degenerateModulus ∧ m ≤ 1 ∨ c = .notInvertible ∧ ¬ m ≤ 1 := by
  unfold modinv at h
  split at h
  · next hm => simp at h; exact .inl ⟨h.symm, hm⟩
  · next hm => unfold modinvEnd at h; split at h <;> simp at h; exact .inr ⟨h.symm, hm⟩

theorem crt_causes {c d p q : Nat} {e : Cause} (h : crt c d p q = .error e) : e = .operandRange ∨ e = .notInvertible := by
  unfold crt at h
  split at h
  · simp at h; exact .inl h.symm
  · next hp =>
    split at h
    · simp at h; exact .inl h.symm
    · split at h
      · next e' he =>
        simp at h; subst h
        rcases modinv_causes he with h1 | h1
        · omega
        · exact .inr h1.1
      · simp at h

theorem exec_isprime (rd rs1 : Reg) :
    exec (.isprime rd rs1) s = finishFermat rd s (fermat (s.src rs1) s.roundCount s.random) := rfl

/-- An ISPRIME that ends took its one fault or wrote `rd`; what it did to the port is what its test did. -/
theorem finishFermat_next {rd : Reg} {r : FermatEnd × RandomPort} (h : finishFermat rd s r = .next t) :
    Ended [.witnessRange] rd False s t ∧ t.random = r.2 ∧ t.host = s.host := by
  obtain ⟨e, p⟩ := r
  cases e with
  | verdict b =>
    injection h with h; subst h
    exact ⟨.completed (BitVec.ofNat 64 (verdictValue b)) s.block.char (fun h => h rfl) rfl, rfl, rfl⟩
  | outOfRange =>
    injection h with h; subst h
    exact ⟨.faulted .witnessRange (by simp) rfl, rfl, rfl⟩
  | unanswered => cases h

/-- EVERYTHING A COMMAND CAN DO when it ends (R57, R162): to the block, to the random-source port, to the host's side. -/
theorem exec_next {i : Instr} (h : exec i s = .next t) :
    Ended i.causes i.dest (i.mnemonic = "CRTDEC") s t ∧ t.host = s.host ∧
    (i.mnemonic ≠ "ISPRIME" → t.random = s.random) ∧
    (∀ rd rs1, i = .isprime rd rs1 → t.random = (fermat (s.src rs1) s.roundCount s.random).2) := by
  have weaken {cs : List Cause} {rd : Reg} {P : Prop} (h : Ended cs rd False s t) : Ended cs rd P s t := by
    cases h with
    | faulted c mem eq => exact .faulted c mem eq
    | completed v c char eq => exact .completed v c (fun h => (char h).elim) eq
  cases i with
  | modmul rd a b m =>
    injection h with h; subst h
    exact ⟨weaken (finish_ended fun c hc => by simp [Instr.causes, modmulCommand_causes hc]),
      by simp, fun _ => by simp, by simp⟩
  | modexp rd a b m =>
    injection h with h; subst h
    exact ⟨weaken (finish_ended fun c hc => by simp [Instr.causes, modexpCommand_causes hc]),
      by simp, fun _ => by simp, by simp⟩
  | gcd rd a b =>
    injection h with h; subst h
    exact ⟨weaken (finish_ended fun c hc => by simp at hc), rfl, fun _ => rfl, by simp⟩
  | modinv rd a m =>
    injection h with h; subst h
    exact ⟨weaken (finish_ended fun c hc => by rcases modinv_causes hc with h | h <;> simp [Instr.causes, h.1]),
      by simp, fun _ => by simp, by simp⟩
  | isprime rd a =>
    rw [exec_isprime] at h
    obtain ⟨h1, h2, h3⟩ := finishFermat_next h
    exact ⟨weaken h1, h3, fun hne => absurd rfl hne, by rintro _ _ ⟨⟩; exact h2⟩
  | crtdec rd c d p q =>
    injection h with h; subst h
    refine ⟨?_, by simp, fun _ => by simp, by simp⟩
    have := finishChar_ended (s := s) (rd := rd) (causes := Instr.causes (.crtdec rd c d p q))
      (res := crt (s.src c) (s.src d) (s.src p) (s.src q))
      fun c hc => by rcases crt_causes hc with h | h <;> simp [Instr.causes, h]
    cases this with
    | faulted c mem eq => exact .faulted c mem eq
    | completed v c char eq => exact .completed v c (fun _ => rfl) eq

/-- A command never refuses, and stops only when a draw of ISPRIME is never answered (R199). -/
theorem exec_answers {i : Instr} (h : s.random.Answers) : ∃ t, exec i s = .next t ∧ t.random.Answers := by
  cases i with
  | isprime rd rs1 =>
    obtain ⟨h1, h2⟩ := fermat_answers (s.src rs1) s.roundCount s.random h
    rw [exec_isprime]
    generalize fermat (s.src rs1) s.roundCount s.random = r at h1 h2
    obtain ⟨e, p⟩ := r
    cases e with
    | verdict b => exact ⟨_, rfl, h2⟩
    | outOfRange => exact ⟨_, rfl, h2⟩
    | unanswered => exact absurd rfl h1
  | modmul rd a b m => exact ⟨_, rfl, by simpa using h⟩
  | modexp rd a b m => exact ⟨_, rfl, by simpa using h⟩
  | gcd rd a b => exact ⟨_, rfl, h⟩
  | modinv rd a m => exact ⟨_, rfl, by simpa using h⟩
  | crtdec rd c d p q => exact ⟨_, rfl, by simpa using h⟩

/-- What a command appends to the record of draws: requests in contract, and only by ISPRIME (R40, R117). -/
theorem exec_draws {i : Instr} (h : exec i s = .next t) : ∃ ds : List Draw, t.random.draws = s.random.draws ++ ds ∧
    ∀ d ∈ ds, ∃ (n : Word) (a : Answer), 5 ≤ n.toNat ∧ d = witnessRequest n.toNat a := by
  obtain ⟨-, -, h1, h2⟩ := exec_next h
  by_cases hi : i.mnemonic = "ISPRIME"
  · cases i with
    | isprime rd rs1 =>
      obtain ⟨ds, e, -, hd, -⟩ := fermat_draws (s.src rs1) s.roundCount s.random
      refine ⟨ds, by rw [h2 rd rs1 rfl, e], fun d hm => ?_⟩
      obtain ⟨h5, a, rfl⟩ := hd d hm
      exact ⟨s.reg rs1, a, h5, rfl⟩
    | _ => simp [Instr.mnemonic] at hi
  · exact ⟨[], by rw [h1 hi]; simp, by simp⟩

/-- What an `Execute` can do (R55, R57): an illegal value is IllegalCommand and nothing else. -/
theorem execute_next {v : Word} (h : execute v s = .next t) :
    (∃ e, decode v = .error e ∧ t = { s with block := { s.block with err := 5 } }) ∨
    (∃ i, decode v = .ok i ∧ exec i s = .next t) := by
  unfold execute at h
  split at h
  · next e he => injection h with h; exact .inl ⟨e, he, h.symm⟩
  · next i hi => exact .inr ⟨i, hi, h⟩

/-- What a HostWrite to `CMD` can do: the execution at the state that holds the value, and then its reply (R32, R33). -/
theorem hostWrite_cmd (v : Word) : hostWrite 8 v s = onNext (·.reply .done) (execute v (s.setCmd v)) := rfl

end Sys2Proof.Machine
end

