-- ==== Sys2Proof/Laws/Host.lean ====
section
/-! SUPPORT. What each building block of the host procedures can do, said once: the procedures' proofs cite these and unfold no
transaction. -/

namespace Sys2Proof.Machine

variable {s t : State}

@[simp] theorem HostResult.andThen_done {α β : Type} (a : α) (f : α → State → HostResult β) :
    (HostResult.done a s).andThen f = f a s := rfl

/-- A sequence that is done has done both parts. -/
theorem HostResult.andThen_eq_done {α β : Type} {r : HostResult α} {f : α → State → HostResult β} {b : β}
    (h : r.andThen f = .done b t) : ∃ a u, r = .done a u ∧ f a u = .done b t := by
  cases r with
  | done a u => exact ⟨a, u, rfl, h⟩
  | failed e u => simp [HostResult.andThen] at h
  | pending u => simp [HostResult.andThen] at h
  | outsideSpec u => simp [HostResult.andThen] at h
  | stuck => simp [HostResult.andThen] at h

/-- `WR` of an operand register is always done (R32). -/
theorem hostWr_reg (r : Reg) (v : Word) : hostWr r.val v s = .done () ((s.setReg r v).reply .done) := by
  simp [hostWr, hostWrite, r.isLt]

/-- `RD` of an operand register (R31). -/
theorem hostRd_reg (r : Reg) : hostRd r.val s = s.reg r := by simp [hostRd, hostRead_reg]

theorem hostRd_status : hostRd 9 s = s.block.err.setWidth 64 := rfl
theorem hostRd_char : hostRd 11 s = s.block.char.setWidth 64 := rfl

/-- A zero-extended `STATUS.ERR` is zero only when the field is. -/
theorem hostRd_status_eq_zero : hostRd 9 s = 0 ↔ s.block.err = 0 := by
  rw [hostRd_status]
  constructor
  · intro h
    have h := congrArg BitVec.toNat h
    rw [BitVec.toNat_setWidth] at h
    apply BitVec.eq_of_toNat_eq
    have := s.block.err.isLt
    simp at h ⊢
    omega
  · intro h; rw [h]; rfl

/-- A command line that is done ran its command to an end without fault. -/
theorem hostCommand_eq_done {i : Instr} (hi : decode (commandValue i) = .ok i) :
    hostCommand i s = .done () t ↔
      ∃ u, exec i (s.setCmd (commandValue i)) = .next u ∧ u.block.err = 0 ∧ t = u.reply .done := by
  have hx : hostWrite 8 (commandValue i) s = onNext (·.reply .done) (exec i (s.setCmd (commandValue i))) := by
    show onNext _ (execute _ _) = _
    rw [execute, hi]
  unfold hostCommand hostWr
  rw [hx]
  cases exec i (s.setCmd (commandValue i)) with
  | next u =>
    simp only [onNext_next, HostResult.andThen_done]
    by_cases he : u.block.err = 0
    · rw [if_neg (by rw [ne_eq, hostRd_status_eq_zero]; exact not_not.mpr he)]
      constructor
      · rintro ⟨⟩; exact ⟨u, rfl, he, rfl⟩
      · rintro ⟨w, ⟨⟩, -, rfl⟩; rfl
    · rw [if_pos (by rw [ne_eq, hostRd_status_eq_zero]; exact he)]
      constructor
      · rintro ⟨⟩
      · rintro ⟨w, ⟨⟩, h0, -⟩; exact absurd h0 he
  | fault e => simp [HostResult.andThen]
  | refused e => simp [HostResult.andThen]

/-- A host value is given on exactly, and only when it fits `u64` (R151). -/
theorem withInteger_eq_done {α : Type} {v : Int} {f : Word → HostResult α} {a : α} (h : withInteger v s f = .done a t) :
    ∃ w : Word, (w.toNat : Int) = v ∧ f w = .done a t := by
  unfold withInteger at h
  split at h
  · next hv => exact ⟨_, by rw [BitVec.toNat_ofNat]; omega, h⟩
  · simp at h

theorem withInteger_of_fits {α : Type} {v : Int} {f : Word → HostResult α} (h0 : 0 ≤ v) (h : v < 2 ^ 64) :
    ∃ w : Word, (w.toNat : Int) = v ∧ withInteger v s f = f w :=
  ⟨BitVec.ofNat 64 v.toNat, by rw [BitVec.toNat_ofNat]; omega, if_pos ⟨h0, h⟩⟩

end Sys2Proof.Machine
end

