-- ==== Sys2Proof/Laws/PerInstr.lean ====
section
/-! SUPPORT. The family `Encoding`: every command's word is the command of its own row of the opcode map, by that row's mask
and match (R52, R53). -/

namespace Sys2Proof.Laws.Encoding

/-- The row of the command's mnemonic matches the command's word. -/
def Statement (i : Instr) : Prop :=
  ∃ row ∈ opcodeRows, row.mnemonic = i.mnemonic ∧ encode i &&& row.mask = row.matchValue

theorem modmul (rd rs1 rs2 rs3 : Reg) : Statement (.modmul rd rs1 rs2 rs3) :=
  ⟨⟨"MODMUL", 0xFFF000FF, 1⟩, by decide, rfl,
    (assembleWord_and 0 rs3 rs2 rs1 rd 1 7#3 0#3 0#3 0#3 0#3).trans (by simp only [BitVec.and_zero]; rfl)⟩

theorem modexp (rd rs1 rs2 rs3 : Reg) : Statement (.modexp rd rs1 rs2 rs3) :=
  ⟨⟨"MODEXP", 0xFFF000FF, 2⟩, by decide, rfl,
    (assembleWord_and 0 rs3 rs2 rs1 rd 2 7#3 0#3 0#3 0#3 0#3).trans (by simp only [BitVec.and_zero]; rfl)⟩

theorem gcd (rd rs1 rs2 : Reg) : Statement (.gcd rd rs1 rs2) :=
  ⟨⟨"GCD", 0xFFFE00FF, 3⟩, by decide, rfl,
    (assembleWord_and 0 0 rs2 rs1 rd 3 7#3 7#3 0#3 0#3 0#3).trans (by simp only [BitVec.and_zero]; rfl)⟩

theorem modinv (rd rs1 rs2 : Reg) : Statement (.modinv rd rs1 rs2) :=
  ⟨⟨"MODINV", 0xFFFE00FF, 4⟩, by decide, rfl,
    (assembleWord_and 0 0 rs2 rs1 rd 4 7#3 7#3 0#3 0#3 0#3).trans (by simp only [BitVec.and_zero]; rfl)⟩

theorem isprime (rd rs1 : Reg) : Statement (.isprime rd rs1) :=
  ⟨⟨"ISPRIME", 0xFFFFC0FF, 5⟩, by decide, rfl,
    (assembleWord_and 0 0 0 rs1 rd 5 7#3 7#3 7#3 0#3 0#3).trans (by simp only [BitVec.and_zero]; rfl)⟩

theorem crtdec (rd rs1 rs2 rs3 rs4 : Reg) : Statement (.crtdec rd rs1 rs2 rs3 rs4) :=
  ⟨⟨"CRTDEC", 0xFF8000FF, 6⟩, by decide, rfl,
    (assembleWord_and rs4 rs3 rs2 rs1 rd 6 0#3 0#3 0#3 0#3 0#3).trans (by simp only [BitVec.and_zero]; rfl)⟩

/-- The family's statement, for every command. -/
theorem all (i : Instr) : Statement i := by
  cases i with
  | modmul rd rs1 rs2 rs3 => exact modmul rd rs1 rs2 rs3
  | modexp rd rs1 rs2 rs3 => exact modexp rd rs1 rs2 rs3
  | gcd rd rs1 rs2 => exact gcd rd rs1 rs2
  | modinv rd rs1 rs2 => exact modinv rd rs1 rs2
  | isprime rd rs1 => exact isprime rd rs1
  | crtdec rd rs1 rs2 rs3 rs4 => exact crtdec rd rs1 rs2 rs3 rs4

end Sys2Proof.Laws.Encoding
end

