-- ==== Sys2Proof/Tests/Slice0.lean ====
section
/-! SUPPORT. Tests of the author's own: expected results are the spec's (95_test_vectors.md and the corner-case tables), each on one
step; and a witness for the hypotheses of every statement in Certificates/Slice0/Obligations.lean. -/

namespace Sys2Proof.Tests

open Sys2Proof.Machine

/-- The reset state with these operand registers. -/
def st (x0 x1 x2 x3 x4 x5 x6 x7 : Word) : State :=
  { State.reset with block := { Block.reset with x := #v[x0, x1, x2, x3, x4, x5, x6, x7] } }

/-- With this round count and these scripted answers. -/
def withRandom (s : State) (rounds : BitVec 32) (script : List Answer) : State :=
  { s with block := { s.block with rounds := rounds }, random := { script := script, draws := [] } }

/-- With these events pending. -/
def withInbox (s : State) (es : List Event) : State := s.setInbox es

/-- What `f` shows of a next state. -/
def after {α : Type} (o : Outcome) (f : State → α) : Option α :=
  match o with
  | .next s    => some (f s)
  | .fault _   => none
  | .refused _ => none

/-! ### Decoding: words written out by the spec (30_encoding.md R59, 95_test_vectors.md 2.7) -/

-- 000000000 000 011 010 001 000 00000001: MODMUL x0, x1, x2, x3
theorem test_decode_modmul : decodeTableWord 32 0b00000000000001101000100000000001 = some (.modmul 0 1 2 3) := by decide
-- 000000000 000 010 001 000 011 00000010: MODEXP x3, x0, x1, x2
theorem test_decode_modexp : decodeTableWord 32 0b00000000000001000100001100000010 = some (.modexp 3 0 1 2) := by decide
-- 000000000 000 000 001 000 010 00000011: GCD x2, x0, x1
theorem test_decode_gcd : decodeTableWord 32 0b00000000000000000100001000000011 = some (.gcd 2 0 1) := by decide
-- 000000000 000 000 101 001 100 00000100: MODINV x4, x1, x5
theorem test_decode_modinv : decodeTableWord 32 0b00000000000000010100110000000100 = some (.modinv 4 1 5) := by decide
-- 000000000 000 000 000 000 001 00000101: ISPRIME x1, x0
theorem test_decode_isprime : decodeTableWord 32 0b00000000000000000000000100000101 = some (.isprime 1 0) := by decide
-- 000000000 110 101 100 011 111 00000110: CRTDEC x7, x3, x4, x5, x6
theorem test_decode_crtdec : decodeTableWord 32 0b00000000011010110001111100000110 = some (.crtdec 7 3 4 5 6) := by decide
theorem test_decode_illegal : decode 0 = .error .reservedOpcode ∧ decode 0xFF = .error .reservedOpcode ∧
    decode 0x24203 = .error .unusedField ∧ decode 0x24204 = .error .unusedField ∧ decode 0x144302 = .error .unusedField ∧
    decode 0x80000001 = .error .zeroField ∧ decode 0xFFFF06 = .error .zeroField := by decide
theorem test_encode : encode (.modmul 7 7 7 7) = 0x000FFF01 ∧ encode (.gcd 7 7 7) = 0x0001FF03 ∧
    encode (.isprime 0 0) = 0x00000005 ∧ encode (.crtdec 7 7 7 7 7) = 0x007FFF06 ∧ encode (.modinv 4 1 5) = 0x00014C04 ∧
    encode (.modexp 3 0 1 2) = 0x00044302 := by decide

/-! ### WellFormed refuses an ill-formed term for each of its checks -/

theorem test_wellFormed_highHalf : legalCommand 0x0000000100000001 = false := by decide
theorem test_wellFormed_zeroField : legalCommand 0x00800001 = false := by decide
theorem test_wellFormed_reservedOpcode : legalCommand 0 = false ∧ legalCommand 7 = false := by decide
theorem test_wellFormed_unusedField : legalCommand 0x00004105 = false ∧ legalCommand 0x00144302 = false := by decide
theorem test_wellFormed_legal : legalCommand 0x00068801 = true ∧ legalCommand 0x007FFF06 = true := by decide
theorem test_wellFormed_index : (Transaction.hostRead 12).wellFormed = false ∧ (Transaction.hostWrite 12 0).wellFormed = false := by
  decide
theorem test_wellFormed_readOnly : (Transaction.hostWrite 9 0).wellFormed = false ∧ (Transaction.hostWrite 11 65).wellFormed = false ∧
    (Transaction.hostRead 9).wellFormed = true := by decide
theorem test_wellFormed_shape : (Transaction.read ⟨0, 0, 32⟩).wellFormed = false ∧ (Transaction.read ⟨0, 8, 64⟩).wellFormed = false := by
  decide
theorem test_wellFormed_event : (Event.concurrent (.hostRead 0) (.hostRead 1)).wellFormed = false := by decide

/-! ### Commands (95_test_vectors.md section 2; at most two tests each) -/

-- 2.1: the product 25000000000000000000 exceeds 2^64; a truncated one would give 6553255926290448384
theorem test_modmul_exact : after (exec (.modmul 0 1 2 3) (st 0 5000000000 5000000000 18446744073709551557 0 0 0 0))
    (fun s => (s.reg 0, s.block.err)) = some (6553255926290448443, 0) := by decide
-- R74: rd is also a source; and the zero modulus
theorem test_modmul_alias_and_zero :
    after (exec (.modmul 3 1 2 3) (st 0 7 8 5 0 0 0 0)) (·.reg 3) = some 1 ∧
    after (exec (.modmul 0 1 2 3) (st 9 3 4 0 0 0 0 0)) (fun s => (s.reg 0, s.block.err)) = some (9, 2) := by decide
-- 2.2: a 64-bit exponent, 2^59
theorem test_modexp_wide : after (exec (.modexp 3 0 1 2) (st 2 18446744073709551615 18446744073709551557 0 0 0 0 0))
    (fun s => (s.reg 3, s.block.err)) = some (576460752303423488, 0) := by decide +kernel
-- 2.2: exponent 0 under modulus 1, and modulus 0
theorem test_modexp_corners :
    after (exec (.modexp 3 0 1 2) (st 5 0 1 7 0 0 0 0)) (·.reg 3) = some 0 ∧
    after (exec (.modexp 3 0 1 2) (st 7 1 0 5 0 0 0 0)) (fun s => (s.reg 3, s.block.err)) = some (5, 2) := by decide +kernel
-- R93
theorem test_gcd : after (exec (.gcd 2 0 1) (st 18446744073709551615 4294967295 0 0 0 0 0 0)) (·.reg 2) = some 4294967295 := by
  decide +kernel
-- 2.3
theorem test_gcd_zero : after (exec (.gcd 2 0 1) (st 0 9 1 0 0 0 0 0)) (fun s => (s.reg 2, s.block.err)) = some (9, 0) := by
  decide +kernel
-- R98, R99: the final coefficient is negative
theorem test_modinv : after (exec (.modinv 4 1 5) (st 0 17 0 0 0 3120 0 0)) (fun s => (s.reg 4, s.block.err)) = some (2753, 0) := by
  decide +kernel
-- 2.4: 0 modulo 1 is DegenerateModulus before invertibility, 0 modulo 2 is NotInvertible
theorem test_modinv_faults :
    after (exec (.modinv 4 1 5) (st 0 0 0 0 8 1 0 0)) (fun s => (s.reg 4, s.block.err)) = some (8, 1) ∧
    after (exec (.modinv 4 1 5) (st 0 0 0 0 8 2 0 0)) (fun s => (s.reg 4, s.block.err)) = some (8, 3) := by decide +kernel
-- 2.5: 15 passes for 4 and 11 and fails for 2, three draws made
theorem test_isprime_rounds : after (exec (.isprime 1 0) (withRandom (st 15 9 0 0 0 0 0 0) 3 [.value 4, .value 11, .value 2, .value 7]))
    (fun s => (s.reg 1, s.block.err, s.random.draws.length, s.random.script)) = some (0, 0, 3, [.value 7]) := by decide +kernel
-- 2.5: 7 with answers 3 and 6 is WitnessRange after two draws of Draw(2, 5)
theorem test_isprime_outOfRange : after (exec (.isprime 1 0) (withRandom (st 7 9 0 0 0 0 0 0) 2 [.value 3, .value 6]))
    (fun s => (s.reg 1, s.block.err, s.random.draws)) = some (9, 6, [⟨2, 5, .value 3⟩, ⟨2, 5, .value 6⟩]) := by decide +kernel
-- R130: the difference m1 − m2 + p is negative
theorem test_crtdec_negative : after (exec (.crtdec 0 1 2 3 4) (st 0 24 7 3 11 0 0 0))
    (fun s => (s.reg 0, s.block.char, s.block.err)) = some (18, 18, 0) := by decide +kernel
-- R134: m = 1000 keeps all its bits in x[rd] and is truncated in CHAR
theorem test_crtdec_char : after (exec (.crtdec 0 1 2 3 4) (st 0 175 2753 61 53 0 0 0))
    (fun s => (s.reg 0, s.block.char)) = some (1000, 232) := by decide +kernel

/-! ### The interface, the step, reset (95_test_vectors.md 2.8) -/

-- WR ROUNDS, 0x100000003 then RD ROUNDS: 3
theorem test_rounds_write : after (transact (.hostWrite 10 0x100000003) State.reset) (hostRead 10) = some (some 3) := by decide
theorem test_reset_read : hostRead 10 State.reset = some 5 ∧ hostRead 9 State.reset = some 0 ∧ hostRead 12 State.reset = none := by decide
-- MODINV with a non-zero rs3 field: STATUS 5, CMD keeps the value
theorem test_illegal_value : after (step (State.reset.withFetchWord 32 0x24204)) (fun s => (s.block.err, s.block.cmd, s.host.replies)) =
    some (5, 0x24204, [.done]) := by decide
-- the first command after reset, on operands 0: fault 2
theorem test_first_command : after (step (State.reset.withFetchWord 32 0x00068801)) (fun s => (s.block.err, s.host.inbox)) =
    some (2, []) := by decide
-- R191: a reset after the first of two draws leaves one draw made and a block in the reset state
theorem test_reset_during : after (step (withInbox (withRandom (st 5 0 0 0 0 0 0 0) 2 [.value 2, .value 3]) [.resetDuring 0x105 1]))
    (fun s => (s.block, s.random.draws.length)) = some (Block.reset, 1) := by decide +kernel

/-! ### Assembler and host procedures -/

theorem test_assembler : (Instr.modexp 3 0 1 2).line = "MODEXP x3, x0, x1, x2" ∧ (Instr.isprime 1 0).line = "ISPRIME x1, x0" ∧
    (Transaction.hostWrite 10 2).line = some "WR ROUNDS, 2" ∧ (Transaction.hostRead 9).line = some "RD STATUS" ∧
    (Transaction.hostRead 12).line = none := by decide
-- Program 5's key and residues
theorem test_encrypt_AB :
    (match encrypt [65, 66] 65537 110347189 State.reset with | .done cs _ => cs | _ => []) = [38130792, 40668234] := by decide +kernel
theorem test_selfCheck_AB :
    (match selfCheck ⟨110347189, 65537, 60885857, 10007, 11027⟩ [65, 66] State.reset with | .done m _ => m | _ => []) = [65, 66] := by
  decide +kernel
-- section 4: p = 10007, q = 10009 rejected (separation 2), then 11027 accepted; e = 65537; d = 60885857; one round each
theorem test_generate :
    (match generate none 2 20000 Config.minSeparation [10007, 10009, 11027, 65537]
        (withRandom State.reset 1 [.value 2, .value 2, .value 2, .value 2]) with | .done k _ => some k | _ => none) =
      some ⟨110347189, 65537, 60885857, 10007, 11027⟩ := by decide +kernel
theorem test_samplePrime_invalidRange :
    (match samplePrime none 3 2 [5] State.reset with | .failed e _ => some e | _ => none) = some .invalidRange := by decide

-- R143: 101 is no value of host_random(2, 10); 7 is, and with no rounds it is accepted
theorem test_samplePrime_range :
    (match samplePrime (some 1) 2 10 [101, 7, 3] (withRandom State.reset 0 []) with | .done r _ => some r | _ => none) =
      some (7, [3]) := by decide +kernel
-- R151: two primes whose product does not fit u64
theorem test_generate_outsideSpec :
    (match generate none 0 (2 ^ 64) 1 [4294967291, 4294967311, 65537] (withRandom State.reset 0 []) with
      | .outsideSpec _ => true | _ => false) = true := by decide +kernel
-- R147: Program 1's key passes the three tests; a wrong d does not
theorem test_keyTests :
    (match keyTests ⟨3233, 17, 2753, 61, 53⟩ State.reset with | .done b _ => some b | _ => none) = some true ∧
    (match keyTests ⟨3233, 17, 2754, 61, 53⟩ State.reset with | .done b _ => some b | _ => none) = some false := by decide +kernel
-- R167: an idle step and a read after a fault are no faults of the run; a faulting CMD write is one
theorem test_clean :
    cleanFor 1 ((st 0 0 0 0 0 0 0 0).setErr 2) ∧ cleanFor 1 (withInbox ((st 0 0 0 0 0 0 0 0).setErr 2) [.transaction (.hostRead 9)]) ∧
    ¬ cleanFor 1 (withInbox State.reset [.transaction (.hostWrite 8 0)]) := by
  refine ⟨⟨_, rfl, by decide, trivial⟩, ⟨_, rfl, by decide, trivial⟩, ?_⟩
  rintro ⟨t, h, h0, -⟩
  have h0 := h0 (by decide)
  injection h with h
  rw [← h] at h0
  exact absurd h0 (by decide)
-- R34, R36: eight bytes a register from 0x1000; half a register is refused, an address below is not the block's
theorem test_bus : busAccess ⟨0x1000, 8, 8⟩ 0x1048 64 = some (.whole 9) ∧ busAccess ⟨0x1000, 8, 8⟩ 0x104C 32 = some ⟨9, 32, 32⟩ ∧
    busAccess ⟨0x1000, 8, 8⟩ 0xFF8 64 = none := by decide

/-- A host procedure that shows its result is done. -/
theorem done_of {α : Type} {r : HostResult α} {a : α}
    (h : (match r with | .done k _ => some k | .failed _ _ => none | .pending _ => none | .outsideSpec _ => none | .stuck => none) = some a) :
    ∃ t, r = .done a t := by
  cases r with
  | done b t => injection h with h; exact ⟨t, by rw [h]⟩
  | failed _ _ => simp at h
  | pending _ => simp at h
  | outsideSpec _ => simp at h
  | stuck => simp at h

/-! ### Witnesses: the hypotheses of each statement can be met together -/

theorem witness_LegalValueIsEncodingOfItsCommand : decode 0x007FFF06 = .ok (.crtdec 7 7 7 7 7) := by decide
theorem witness_WordIsCommandExactlyWhenMaskMatches :
    ∃ row ∈ opcodeRows, (0x000FFF01 : CommandWord) &&& row.mask = row.matchValue := by decide
-- one value for each test of R55, at the edge of its field, and a legal value beside them
theorem witness_IllegalValueRaisesIllegalCommand :
    IllegalByTests 0x0000000100000001 ∧ IllegalByTests 0x00800001 ∧ IllegalByTests 0x00000000 ∧ IllegalByTests 0x00000007 ∧
    IllegalByTests 0x00100001 ∧ IllegalByTests 0x00020003 ∧ IllegalByTests 0x00004005 ∧
    ¬ IllegalByTests 0x007FFF06 ∧ ∃ t, hostWrite 8 0x007FFF06 State.reset = .next t := by
  refine ⟨?_, ?_, ?_, ?_, ?_, ?_, ?_, ?_, _, rfl⟩ <;> decide
theorem witness_StepRunsTheDecodedCommand :
    (withInbox State.reset [.transaction (.hostWrite 8 0x4203)]).host.inbox = .transaction (.hostWrite 8 0x4203) :: [] ∧
    decode 0x4203 = .ok (.gcd 2 0 1) ∧
    (withInbox State.reset [.transaction (.read ⟨12, 0, 64⟩)]).host.inbox = .transaction (.read ⟨12, 0, 64⟩) :: [] := by decide
theorem witness_IdleStepHoldsState : State.reset.host.inbox = [] := by decide
theorem witness_ConcurrentHostsAreRefused :
    (withInbox State.reset [.concurrent (.hostRead 0) (.hostRead 1)]).host.inbox = .concurrent (.hostRead 0) (.hostRead 1) :: [] := by
  decide
theorem witness_ModmulWritesExactRemainderOrFaults : (st 0 7 8 1 0 0 0 0).src 3 ≠ 0 ∧ (st 0 7 8 0 0 0 0 0).src 3 = 0 := by decide
theorem witness_ModexpWritesPowerOrFaults : (st 2 3 1 0 0 0 0 0).src 2 ≠ 0 ∧ (st 2 3 0 0 0 0 0 0).src 2 = 0 := by decide
theorem witness_GcdAtZeroAndItsSymmetry : (0 : Nat) < 2 ^ 64 ∧ 2 ^ 64 - 1 < 2 ^ 64 ∧ ¬ ((0 : Nat) = 0 ∧ 2 ^ 64 - 1 = 0) := by decide
theorem witness_ModinvWritesTheUniqueInverse :
    2 ≤ (st 0 1 0 0 0 2 0 0).src 5 ∧ Nat.gcd ((st 0 1 0 0 0 2 0 0).src 1) ((st 0 1 0 0 0 2 0 0).src 5) = 1 := by decide
theorem witness_ModinvFaultsInOrder : (st 0 5 0 0 0 1 0 0).src 5 ≤ 1 ∧ (st 0 5 0 0 0 0 0 0).src 5 ≤ 1 ∧
    2 ≤ (st 0 0 0 0 0 2 0 0).src 5 ∧ Nat.gcd ((st 0 0 0 0 0 2 0 0).src 1) ((st 0 0 0 0 0 2 0 0).src 5) ≠ 1 := by decide
theorem witness_ModinvCoefficientsStayBounded : 2 ^ 64 - 1 < 2 ^ 64 ∧ 2 < 2 ^ 64 ∧ 2 ≤ 2 ∧ Nat.gcd (2 ^ 64 - 1) 2 = 1 := by decide
theorem witness_LoopsEndWithinTheirBounds : 2 ^ 64 - 1 < 2 ^ 64 ∧ 0 < 2 ^ 64 := by decide
theorem witness_IsprimeSmallOperandsNeedNoDraw : (st 4 0 0 0 0 0 0 0).src 0 ≤ 4 ∧ (st 2 0 0 0 0 0 0 0).src 0 = 2 := by decide
theorem witness_IsprimeZeroRounds : (withRandom (st 6 0 0 0 0 0 0 0) 0 []).block.rounds = 0 := by decide
theorem witness_IsprimeAllRoundsPass :
    5 ≤ (withRandom (st 5 0 0 0 0 0 0 0) 2 [.value 2, .value 3, .silence]).src 0 ∧
    (withRandom (st 5 0 0 0 0 0 0 0) 2 [.value 2, .value 3, .silence]).random.script = [2, 3].map .value ++ [.silence] ∧
    [(2 : Word), 3].length = (withRandom (st 5 0 0 0 0 0 0 0) 2 [.value 2, .value 3, .silence]).roundCount ∧
    (InRange 5 2 ∧ InRange 5 3) ∧ Passes 5 2 ∧ Passes 5 3 :=
  ⟨by decide, rfl, by decide, by decide, by unfold Passes; decide⟩
theorem witness_IsprimeFirstFailureEndsIt :
    5 ≤ (withRandom (st 15 0 0 0 0 0 0 0) 2 [.value 4, .value 2]).src 0 ∧
    (withRandom (st 15 0 0 0 0 0 0 0) 2 [.value 4, .value 2]).random.script = [4].map .value ++ .value 2 :: [] ∧
    [(4 : Word)].length < (withRandom (st 15 0 0 0 0 0 0 0) 2 [.value 4, .value 2]).roundCount ∧
    (InRange 15 4 ∧ InRange 15 2) ∧ Passes 15 4 ∧ ¬ Passes 15 2 :=
  ⟨by decide, rfl, by decide, by decide, by unfold Passes; decide⟩
-- both ends: 1 and n − 1
theorem witness_IsprimeOutOfRangeAnswerFaults :
    5 ≤ (withRandom (st 5 0 0 0 0 0 0 0) 1 [.value 4]).src 0 ∧
    (withRandom (st 5 0 0 0 0 0 0 0) 1 [.value 4]).random.script = ([] : List Word).map .value ++ .value 4 :: [] ∧
    ([] : List Word).length < (withRandom (st 5 0 0 0 0 0 0 0) 1 [.value 4]).roundCount ∧
    ((4 : Word).toNat < 2 ∨ 5 - 2 < (4 : Word).toNat) ∧ ((1 : Word).toNat < 2 ∨ 5 - 2 < (1 : Word).toNat) := by decide
theorem witness_IsprimeUnansweredDrawHangs :
    5 ≤ (withRandom (st 5 0 0 0 0 0 0 0) 1 [.silence]).src 0 ∧
    (withRandom (st 5 0 0 0 0 0 0 0) 1 [.silence]).random.script = ([] : List Word).map .value ++ .silence :: [] ∧
    ([] : List Word).length < (withRandom (st 5 0 0 0 0 0 0 0) 1 [.silence]).roundCount := by decide
theorem witness_IsprimeRequestsOnlyItsRange :
    (after (exec (.isprime 1 0) (withRandom (st 5 0 0 0 0 0 0 0) 1 [.value 2])) (·.random.draws.length)) = some 1 := by decide +kernel
-- one for each way to end
theorem witness_IsprimeOutcomeFollowsItsAnswers :
    (5 ≤ (withRandom (st 5 0 0 0 0 0 0 0) 1 [.value 2]).src 0 ∧ ∃ t, exec (.isprime 1 0) (withRandom (st 5 0 0 0 0 0 0 0) 1 [.value 2]) = .next t) ∧
    (5 ≤ (withRandom (st 6 0 0 0 0 0 0 0) 1 [.value 2]).src 0 ∧ ∃ t, exec (.isprime 1 0) (withRandom (st 6 0 0 0 0 0 0 0) 1 [.value 2]) = .next t) ∧
    (5 ≤ (withRandom (st 5 0 0 0 0 0 0 0) 1 [.value 4]).src 0 ∧ ∃ t, exec (.isprime 1 0) (withRandom (st 5 0 0 0 0 0 0 0) 1 [.value 4]) = .next t) :=
  ⟨⟨by decide, _, rfl⟩, ⟨by decide, _, rfl⟩, by decide, _, rfl⟩
theorem witness_PrimesPassForEveryAnswerSequence :
    (5 ≤ (withRandom (st 5 0 0 0 0 0 0 0) 2 [.value 2, .value 3]).src 0 ∧
    (withRandom (st 5 0 0 0 0 0 0 0) 2 [.value 2, .value 3]).random.script = [2, 3].map .value ++ [] ∧
    [(2 : Word), 3].length = (withRandom (st 5 0 0 0 0 0 0 0) 2 [.value 2, .value 3]).roundCount ∧
    InRange 5 2 ∧ InRange 5 3) ∧ Nat.Prime 5 :=
  ⟨⟨by decide, rfl, by decide, by decide⟩, by norm_num⟩
theorem witness_CarmichaelNumberPasses :
    (withRandom (st 561 0 0 0 0 0 0 0) 2 [.value 2, .value 559]).src 0 = 561 ∧
    (withRandom (st 561 0 0 0 0 0 0 0) 2 [.value 2, .value 559]).random.script = [2, 559].map .value ++ [] ∧
    [(2 : Word), 559].length = (withRandom (st 561 0 0 0 0 0 0 0) 2 [.value 2, .value 559]).roundCount ∧
    (InRange 561 2 ∧ InRange 561 559) ∧ Nat.gcd (2 : Word).toNat 561 = 1 ∧ Nat.gcd (559 : Word).toNat 561 = 1 :=
  ⟨by decide, rfl, by decide, by decide, by decide⟩
-- the smallest operands, and a product just below 2^64
theorem witness_CrtdecWritesTheRecombination :
    (2 ≤ (st 0 0 1 2 3 0 0 0).src 3 ∧ 2 ≤ (st 0 0 1 2 3 0 0 0).src 4 ∧
      (st 0 0 1 2 3 0 0 0).src 3 * (st 0 0 1 2 3 0 0 0).src 4 < 2 ^ 64 ∧
      Nat.gcd ((st 0 0 1 2 3 0 0 0).src 4) ((st 0 0 1 2 3 0 0 0).src 3) = 1) ∧
    (st 0 5 7 9223372036854775807 2 0 0 0).src 3 * (st 0 5 7 9223372036854775807 2 0 0 0).src 4 = 2 ^ 64 - 2 := by decide
theorem witness_CrtdecFaultsInOrder :
    (st 0 5 7 1 11 0 0 0).src 3 < 2 ∧ (st 0 5 7 11 0 0 0 0).src 4 < 2 ∧
    (2 ≤ (st 0 5 7 9223372036854775808 2 0 0 0).src 3 ∧ 2 ≤ (st 0 5 7 9223372036854775808 2 0 0 0).src 4 ∧
      2 ^ 64 ≤ (st 0 5 7 9223372036854775808 2 0 0 0).src 3 * (st 0 5 7 9223372036854775808 2 0 0 0).src 4) ∧
    (2 ≤ (st 0 5 7 2 2 0 0 0).src 3 ∧ 2 ≤ (st 0 5 7 2 2 0 0 0).src 4 ∧
      (st 0 5 7 2 2 0 0 0).src 3 * (st 0 5 7 2 2 0 0 0).src 4 < 2 ^ 64 ∧
      Nat.gcd ((st 0 5 7 2 2 0 0 0).src 4) ((st 0 5 7 2 2 0 0 0).src 3) ≠ 1) ∧
    (2 ≤ (st 0 5 7 2 3 0 0 0).src 3 ∧ 2 ≤ (st 0 5 7 2 3 0 0 0).src 4 ∧
      (st 0 5 7 2 3 0 0 0).src 3 * (st 0 5 7 2 3 0 0 0).src 4 < 2 ^ 64 ∧
      Nat.gcd ((st 0 5 7 2 3 0 0 0).src 4) ((st 0 5 7 2 3 0 0 0).src 3) = 1) := by decide
theorem witness_CrtdecResultHasBothResidues :
    ∃ t, exec (.crtdec 0 1 2 3 4) (st 0 2790 2753 61 53 0 0 0) = .next t ∧ t.block.err = 0 := ⟨_, rfl, by decide +kernel⟩
theorem witness_CrtdecReducesItsResidue : (6023 : Nat) < 2 ^ 64 ∧ 2753 < 2 ^ 64 ∧ 61 < 2 ^ 64 ∧ 53 < 2 ^ 64 ∧ 61 * 53 ≤ 6023 := by decide
theorem witness_CrtdecWithPrimeTwoIsLiteral :
    (st 0 4 1 2 3 0 0 0).src 3 = 2 ∧ (st 0 4 1 2 3 0 0 0).src 4 % 2 = 1 ∧ 3 ≤ (st 0 4 1 2 3 0 0 0).src 4 ∧
    2 * (st 0 4 1 2 3 0 0 0).src 4 < 2 ^ 64 := by decide
-- Program 1: base x0, e x1, n x2, residue x3, d x4, p x5, q x6
theorem witness_EncryptionThenCrtDecryptionRoundTrips :
    (Nat.Prime 61 ∧ Nat.Prime 53) ∧ (61 : Nat) ≠ 53 ∧ (61 : Nat) ≠ 2 ∧ (53 : Nat) ≠ 2 ∧ 61 * 53 < 2 ^ 64 ∧
    (st 65 17 3233 0 2753 61 53 0).src 2 = 61 * 53 ∧ (st 65 17 3233 0 2753 61 53 0).src 5 = 61 ∧
    (st 65 17 3233 0 2753 61 53 0).src 6 = 53 ∧
    (st 65 17 3233 0 2753 61 53 0).src 1 * (st 65 17 3233 0 2753 61 53 0).src 4 % ((61 - 1) * (53 - 1)) = 1 ∧
    (st 65 17 3233 0 2753 61 53 0).src 0 < 61 * 53 ∧ (4 : Reg) ≠ 3 ∧ (5 : Reg) ≠ 3 ∧ (6 : Reg) ≠ 3 :=
  ⟨⟨by norm_num, by norm_num⟩, by decide⟩
theorem witness_FaultWritesOnlyStatus : ∃ t, hostWrite 8 7 State.reset = .next t ∧ t.block.err ≠ 0 := ⟨_, rfl, by decide⟩
theorem witness_CommandsChangeNothingElse :
    ∃ t, exec (.gcd 2 0 1) (st 12 18 0 0 0 0 0 0) = .next t ∧ (3 : Reg) ≠ Instr.dest (.gcd 2 0 1) ∧
      Instr.mnemonic (.gcd 2 0 1) ≠ "CRTDEC" ∧ Instr.mnemonic (.gcd 2 0 1) ≠ "ISPRIME" := ⟨_, rfl, by decide⟩
theorem witness_EveryCommandEndsWithItsOwnCodes :
    State.reset.random.Answers ∧ (withRandom State.reset 5 [.value 2]).random.Answers := by decide
theorem witness_OutcomeDependsOnlyOnSources :
    (∀ r ∈ Instr.sources (.gcd 2 0 1), (st 12 18 1 0 0 0 0 0).reg r = (st 12 18 9 4 0 0 0 0).reg r) ∧
    (st 12 18 1 0 0 0 0 0).block.rounds = (st 12 18 9 4 0 0 0 0).block.rounds ∧
    (st 12 18 1 0 0 0 0 0).random = (st 12 18 9 4 0 0 0 0).random ∧
    ∃ t, exec (.gcd 2 0 1) (st 12 18 1 0 0 0 0 0) = .next t := ⟨by decide, by decide, by decide, _, rfl⟩
theorem witness_CmdHoldsTheLastValueWritten : ∃ t, hostWrite 8 0x4203 State.reset = .next t := ⟨_, rfl⟩
-- one for each register of the map, at both ends of x0 .. x7
theorem witness_HostReadAnswersTheRegister :
    (∃ h : 0 < 8, (1 : Word) = (st 1 0 0 0 0 0 0 9).reg ⟨0, h⟩) ∧ (∃ h : 7 < 8, (9 : Word) = (st 1 0 0 0 0 0 0 9).reg ⟨7, h⟩) ∧
    (0 : Word) = State.reset.block.cmd ∧ (0 : Word).toNat = State.reset.block.err.toNat ∧
    (5 : Word).toNat = State.reset.block.rounds.toNat ∧ (0 : Word).toNat = State.reset.block.char.toNat := by decide
theorem witness_HostWriteByIndex : (9 : Nat) = 9 ∨ (9 : Nat) = 11 := by decide
theorem witness_RoundsKeepsTheLowHalf : ∃ t, transact (.hostWrite 10 0x100000003) State.reset = .next t := ⟨_, rfl⟩
theorem witness_RefusedTransactionsChangeNothing :
    12 ≤ (Access.whole 12).index ∧ (Access.mk 0 1 64).offset ≠ 0 ∧ (Access.mk 0 0 63).width ≠ 64 ∧ (Access.mk 0 0 65).width ≠ 64 ∧
    (Access.whole 9).index = 9 ∧ (Access.whole 11).index = 11 := by decide
theorem witness_ResetMapsEveryStateToTheResetState : (withInbox (st 1 2 3 4 5 6 7 8) [.reset]).host.inbox = .reset :: [] := by decide
-- a command that would have ended, and one that would wait for ever
theorem witness_ResetDuringCommandKeepsItsDraws :
    (withInbox (withRandom (st 5 0 0 0 0 0 0 0) 2 [.value 2, .value 3]) [.resetDuring 0x105 1]).host.inbox =
      .resetDuring 0x105 1 :: [] ∧
    (∃ u, execute 0x105 (withInbox (withRandom (st 5 0 0 0 0 0 0 0) 2 [.value 2, .value 3]) [.resetDuring 0x105 1]) = .next u) ∧
    execute 0x105 (withInbox (withRandom (st 5 0 0 0 0 0 0 0) 2 [.silence]) [.resetDuring 0x105 1]) = .fault .drawUnanswered :=
  ⟨by decide, ⟨_, rfl⟩, rfl⟩
theorem witness_OnlyCommandsAndResetWriteStatus :
    (withInbox State.reset [.transaction (.hostWrite 0 7)]).nextIs isCmdWrite = false ∧
    (withInbox State.reset [.transaction (.hostWrite 0 7)]).nextIs isReset = false ∧
    ∃ t, step (withInbox State.reset [.transaction (.hostWrite 0 7)]) = .next t := ⟨by decide, by decide, _, rfl⟩
theorem witness_EveryStepKeepsTheMachineConsistent :
    ({ State.reset with block := { Block.reset with cmd := 0x4203 } } : State).Consistent ∧
    ∃ t, step { State.reset with block := { Block.reset with cmd := 0x4203 } } = .next t := by
  refine ⟨⟨?_, by simp [RandomPort.RequestsInContract, State.reset]⟩, _, rfl⟩
  have h : decode 0x4203 = .ok (.gcd 2 0 1) := by decide
  unfold Block.StatusDescribesCommand
  rw [h]
  exact .inl rfl
theorem witness_EncryptMapsEachCharacter : (3233 : Word) ≠ 0 := by decide
theorem witness_DecryptOfEncryptIsTheMessage :
    (Nat.Prime 61 ∧ (61 : Word).toNat = 61 ∧ Nat.Prime 53 ∧ (53 : Word).toNat = 53) ∧ (61 : Word) ≠ 53 ∧ (61 : Word) ≠ 2 ∧ (53 : Word) ≠ 2 ∧
    (61 : Word).toNat * (53 : Word).toNat < 2 ^ 64 ∧
    (17 : Word).toNat * (2753 : Word).toNat % (((61 : Word).toNat - 1) * ((53 : Word).toNat - 1)) = 1 ∧
    ∀ ch ∈ [(65 : Char8), 66, 0, 255], ch.toNat < (61 : Word).toNat * (53 : Word).toNat :=
  ⟨⟨by norm_num, rfl, by norm_num, rfl⟩, by decide⟩
theorem witness_SamplePrimeReturnsAnAcceptedValueOfItsRange :
    (2 : Nat) < 3 ∧ ∃ t, samplePrime (some 1) 2 10 [101, 7, 3] (withRandom State.reset 0 []) = .done (7, [3]) t :=
  ⟨by decide, done_of test_samplePrime_range⟩
theorem witness_GeneratedKeyMeetsTheKeyPairInvariant :
    1 ≤ Config.minSeparation ∧ ∃ t, generate none 2 20000 Config.minSeparation [10007, 10009, 11027, 65537]
      (withRandom State.reset 1 [.value 2, .value 2, .value 2, .value 2]) = .done ⟨110347189, 65537, 60885857, 10007, 11027⟩ t :=
  ⟨by decide, done_of test_generate⟩
theorem witness_KeyTestsAnswerTheThreeConditions : 0 < totientOf 61 53 ∧ totientOf 61 53 < 2 ^ 64 := by decide
theorem witness_EveryPlacementReachesEveryRegister :
    0 < (⟨0x1000, 8, 8⟩ : Config.BusPlacement).stride ∧ 7 < (⟨0x1000, 8, 8⟩ : Config.BusPlacement).stride ∧
    0 < (⟨0x1000, 8, 8⟩ : Config.BusPlacement).unitBits := by decide

end Sys2Proof.Tests
end

section
/-! PROOFS. The statements of `10_state.md`: what a command and a step do to the block's registers and leave unchanged. -/

namespace Sys2Proof.Machine

variable {s t : State}

/-! ### The frame of a command that has ended -/

section EndedFrame

variable {causes : List Cause} {rd : Reg} {writesChar : Prop}

theorem Ended.cmd_eq (h : Ended causes rd writesChar s t) : t.block.cmd = s.block.cmd := by
  cases h with
  | faulted c mem eq => rw [eq]
  | completed v c char eq => rw [eq]

theorem Ended.rounds_eq (h : Ended causes rd writesChar s t) : t.block.rounds = s.block.rounds := by
  cases h with
  | faulted c mem eq => rw [eq]
  | completed v c char eq => rw [eq]

theorem Ended.char_eq (h : Ended causes rd writesChar s t) (hw : ¬ writesChar) : t.block.char = s.block.char := by
  cases h with
  | faulted c mem eq => rw [eq]
  | completed v c char eq => rw [eq]; exact not_not.mp (mt char hw)

theorem Ended.reg_eq (h : Ended causes rd writesChar s t) {r : Reg} (hr : r ≠ rd) : t.reg r = s.reg r := by
  cases h with
  | faulted c mem eq => simp only [State.reg, eq]
  | completed v c char eq => simpa only [State.reg, State.setReg, eq] using s.setReg_reg_ne v hr

theorem Ended.err_cases (h : Ended causes rd writesChar s t) : t.block.err = 0 ∨ ∃ c ∈ causes, t.block.err = c.code := by
  cases h with
  | faulted c mem eq => exact .inr ⟨c, mem, by rw [eq]⟩
  | completed v c char eq => exact .inl (by rw [eq])

end EndedFrame

theorem execute_cmd_eq {v : Word} (h : execute v s = .next t) : t.block.cmd = s.block.cmd := by
  obtain ⟨e, -, rfl⟩ | ⟨i, -, hi⟩ := execute_next h
  · rfl
  · exact (exec_next hi).1.cmd_eq

/-- A HostWrite to `CMD` that answers is the execution from the state that holds the value, and its reply (R32, R33). -/
theorem hostWrite_cmd_next {v : Word} (h : hostWrite 8 v s = .next t) :
    ∃ u, execute v (s.setCmd v) = .next u ∧ t = u.reply .done := by
  rw [hostWrite_cmd] at h
  exact onNext_eq_next h

theorem hostWrite_cmd_next_cmd {v : Word} (h : hostWrite 8 v s = .next t) : t.block.cmd = v := by
  obtain ⟨u, hu, rfl⟩ := hostWrite_cmd_next h
  exact execute_cmd_eq hu

/-! ### Requests on the random-source port -/

/-- From `p` to `q` nothing was recorded but requests that a round of ISPRIME makes (R113, R117). -/
def RandomPort.ExtendsByWitnesses (p q : RandomPort) : Prop :=
  ∃ ds : List Draw, q.draws = p.draws ++ ds ∧
    ∀ d ∈ ds, ∃ (n : Word) (a : Answer), 5 ≤ n.toNat ∧ d = witnessRequest n.toNat a

theorem RandomPort.ExtendsByWitnesses.refl (p : RandomPort) : p.ExtendsByWitnesses p := ⟨[], by simp⟩

theorem witnessRequest_hi_toNat (n : Word) (a : Answer) : (witnessRequest n.toNat a).hi.toNat = n.toNat - 2 :=
  (BitVec.toNat_ofNat ..).trans (Nat.mod_eq_of_lt (by omega))

/-- Witness requests are in the port's contract (R40), so a port extended by them stays within it. -/
theorem RandomPort.RequestsInContract.extend {p q : RandomPort} (hp : p.RequestsInContract)
    (h : p.ExtendsByWitnesses q) : q.RequestsInContract := by
  obtain ⟨ds, hq, hds⟩ := h
  intro d hd
  rw [hq] at hd
  rcases List.mem_append.mp hd with hd | hd
  · exact hp d hd
  · obtain ⟨n, a, h5, rfl⟩ := hds d hd
    exact ⟨rfl, n, h5, witnessRequest_hi_toNat n a⟩

theorem fermat_extends (r : Reg) (rounds : Nat) (p : RandomPort) :
    p.ExtendsByWitnesses (fermat (s.src r) rounds p).2 := by
  obtain ⟨ds, hds, -, hreq, -⟩ := fermat_draws (s.src r) rounds p
  refine ⟨ds, hds, fun d hd => ?_⟩
  obtain ⟨h5, a, ha⟩ := hreq d hd
  exact ⟨s.reg r, a, h5, ha⟩

theorem execute_extends {v : Word} (h : execute v s = .next t) : s.random.ExtendsByWitnesses t.random := by
  obtain ⟨e, -, rfl⟩ | ⟨i, -, hi⟩ := execute_next h
  · exact .refl _
  · exact exec_draws hi

/-- The draws of a command that a reset interrupts are witness requests too (R191). -/
theorem drawsMadeBy_extends (v : Word) (made : Nat) (s : State) : s.random.ExtendsByWitnesses (drawsMadeBy v made s) := by
  unfold drawsMadeBy
  split
  case h_6 rd rs1 _ => exact fermat_extends rs1 _ _
  all_goals exact .refl _

/-! ### What an event and a step can do to `CMD`, `STATUS` and the port -/

/-- `CMD`, `STATUS.ERR` and the random-source port are as before. -/
structure KeepsOutcome (s t : State) : Prop where
  cmd    : t.block.cmd = s.block.cmd
  err    : t.block.err = s.block.err
  random : t.random = s.random

/-- What one event can have done: it ran the value written to `CMD`, it reset the block, or it left `CMD`, `STATUS` and the port. -/
inductive Delivered (e : Event) (s t : State) : Prop where
  | command (v : Word) (event : isCmdWrite e = true) (run : hostWrite 8 v s = .next t)
  | reset (event : isReset e = true) (block : t.block = Block.reset) (draws : s.random.ExtendsByWitnesses t.random)
  | quiet (keeps : KeepsOutcome s t)

/-- A HostWrite to any register but `CMD` leaves what commands leave (R32, R35). -/
theorem hostWrite_keepsOutcome {k : Nat} {v : Word} (hk : k ≠ 8) (h : hostWrite k v s = .next t) : KeepsOutcome s t := by
  rw [hostWrite, if_neg hk] at h
  split at h
  · injection h with h; subst h; exact ⟨rfl, rfl, rfl⟩
  · split at h <;> (injection h with h; subst h; exact ⟨rfl, rfl, rfl⟩)

theorem Access.eq_whole_of_coversOne {a : Access} (h : a.coversOne = true) : a = .whole a.index := by
  obtain ⟨index, offset, width⟩ := a
  obtain ⟨rfl, rfl⟩ : offset = 0 ∧ width = 64 := by simpa [Access.coversOne] using h
  rfl

theorem transact_read_keepsOutcome {a : Access} (h : transact (.read a) s = .next t) : KeepsOutcome s t := by
  simp only [transact] at h
  split at h <;> (injection h with h; subst h; exact ⟨rfl, rfl, rfl⟩)

theorem transact_write_delivered {a : Access} {v : Word} (h : transact (.write a v) s = .next t) :
    Delivered (.transaction (.write a v)) s t := by
  simp only [transact] at h
  split at h
  case isTrue hone =>
    by_cases hk : a.index = 8
    · refine .command v ?_ (hk ▸ h)
      rw [isCmdWrite, beq_iff_eq, Access.eq_whole_of_coversOne hone, hk]
    · exact .quiet (hostWrite_keepsOutcome hk h)
  case isFalse => injection h with h; subst h; exact .quiet ⟨rfl, rfl, rfl⟩

theorem deliver_next {e : Event} (h : deliver e s = .next t) : Delivered e s t := by
  cases e with
  | transaction tr =>
    cases tr with
    | read a => exact .quiet (transact_read_keepsOutcome h)
    | write a v => exact transact_write_delivered h
  | reset => injection h with h; subst h; exact .reset rfl rfl (.refl _)
  | resetDuring v made => injection h with h; subst h; exact .reset rfl rfl (drawsMadeBy_extends v made s)
  | concurrent _ _ => cases h

/-- EVERYTHING A STEP CAN DO (R37): with nothing pending it holds the state, else it delivers the oldest event. -/
theorem step_next (h : step s = .next t) :
    (s.host.inbox = [] ∧ t = s) ∨ ∃ e es, s.host.inbox = e :: es ∧ Delivered e (s.setInbox es) t := by
  unfold step deliverNext at h
  split at h
  case h_1 hnil => injection h with h; exact .inl ⟨hnil, h.symm⟩
  case h_2 e es hcons => exact .inr ⟨e, es, hcons, deliver_next h⟩

/-! ### The invariant -/

theorem Block.statusDescribesCommand_of_ok {b : Block} {i : Instr} (hi : decode b.cmd = .ok i)
    (h : b.err = 0 ∨ ∃ c ∈ i.causes, b.err = c.code) : b.StatusDescribesCommand := by
  rw [Block.StatusDescribesCommand, hi]; exact h

theorem Block.statusDescribesCommand_of_error {b : Block} {e : Illegal} (he : decode b.cmd = .error e)
    (h : b.err = 5 ∨ (b.cmd = 0 ∧ b.err = 0)) : b.StatusDescribesCommand := by
  rw [Block.StatusDescribesCommand, he]; exact h

theorem Block.reset_statusDescribesCommand : Block.reset.StatusDescribesCommand :=
  have h0 : decode 0 = .error .reservedOpcode := by decide
  statusDescribesCommand_of_error h0 (.inr ⟨rfl, rfl⟩)

/-- The invariant speaks of `CMD`, `STATUS.ERR` and the port only. -/
theorem KeepsOutcome.consistent (h : KeepsOutcome s t) (hs : s.Consistent) : t.Consistent where
  status := by
    have := hs.status
    rwa [Block.StatusDescribesCommand, ← h.cmd, ← h.err] at this
  requests := h.random ▸ hs.requests

/-- After a value is executed, `STATUS` describes it, whatever `STATUS` was before (R16, R55, R57). -/
theorem execute_statusDescribesCommand {v : Word} (h : execute v (s.setCmd v) = .next t) :
    t.block.StatusDescribesCommand := by
  have hcmd : t.block.cmd = v := execute_cmd_eq h
  obtain ⟨e, he, rfl⟩ | ⟨i, hi, hx⟩ := execute_next h
  · exact Block.statusDescribesCommand_of_error he (.inl rfl)
  · exact Block.statusDescribesCommand_of_ok (hcmd ▸ hi) (exec_next hx).1.err_cases

theorem hostWrite_cmd_consistent {v : Word} (hs : s.Consistent) (h : hostWrite 8 v s = .next t) : t.Consistent := by
  obtain ⟨u, hu, rfl⟩ := hostWrite_cmd_next h
  have hstatus : u.block.StatusDescribesCommand := execute_statusDescribesCommand hu
  have hext : (s.setCmd v).random.ExtendsByWitnesses u.random := execute_extends hu
  exact ⟨hstatus, hs.requests.extend hext⟩

theorem Delivered.consistent {e : Event} (h : Delivered e s t) (hs : s.Consistent) : t.Consistent := by
  cases h with
  | command v _ run => exact hostWrite_cmd_consistent hs run
  | reset _ block draws => exact ⟨block ▸ Block.reset_statusDescribesCommand, hs.requests.extend draws⟩
  | quiet keeps => exact keeps.consistent hs

/-- Settles O46: an event runs a command, resets the block or leaves all that the invariant speaks of. -/
theorem everyStepKeepsTheMachineConsistent : Obligations.EveryStepKeepsTheMachineConsistent := by
  intro s t hs h
  obtain ⟨-, rfl⟩ | ⟨e, es, -, hd⟩ := step_next h
  · exact hs
  · exact hd.consistent ⟨hs.status, hs.requests⟩

/-- Settles O47: a command value of 0 is illegal, and `STATUS` is 0 with it only after reset. -/
theorem resetIsConsistent : Obligations.ResetIsConsistent :=
  ⟨Block.reset_statusDescribesCommand, fun _ hd => absurd hd List.not_mem_nil⟩

/-- Settles O51: of what an event can do, only a command and a reset touch `STATUS`. -/
theorem onlyCommandsAndResetWriteStatus : Obligations.OnlyCommandsAndResetWriteStatus := by
  intro s t hcmd hreset h
  obtain ⟨-, rfl⟩ | ⟨e, es, hin, hd⟩ := step_next h
  · rfl
  · simp only [State.nextIs, hin, List.head?_cons, Option.any_some] at hcmd hreset
    cases hd with
    | command v event run => simp [hcmd] at event
    | reset event block draws => simp [hreset] at event
    | quiet keeps => exact keeps.err

/-! ### Commands: frame, sources, and the earlier `STATUS` -/

/-- Settles O34, by the frame of each way a command ends. -/
theorem commandsChangeNothingElse : Obligations.CommandsChangeNothingElse := by
  intro i s t h
  obtain ⟨hend, hhost, hrandom, -⟩ := exec_next h
  exact ⟨fun _ hr => hend.reg_eq hr, hend.cmd_eq, hend.rounds_eq, hhost, hend.char_eq, hrandom⟩

/-- Two states in which a command that writes `rd`, and `CHAR` only where `writesChar`, has ended in the same way. -/
structure SameOutcome (rd : Reg) (writesChar : Prop) (t t' : State) : Prop where
  err    : t'.block.err = t.block.err
  random : t'.random = t.random
  reg    : t.block.err = 0 → t'.reg rd = t.reg rd
  char   : t.block.err = 0 → writesChar → t'.block.char = t.block.char

section SameOutcome

variable {s' : State} {rd : Reg} {writesChar : Prop}

theorem takeFault_sameOutcome (hr : s.random = s'.random) (c : Cause) :
    SameOutcome rd writesChar (s.takeFault c) (s'.takeFault c) :=
  ⟨rfl, hr.symm, fun h => absurd h c.code_ne_zero, fun h => absurd h c.code_ne_zero⟩

theorem complete_sameOutcome (hr : s.random = s'.random) (hw : ¬ writesChar) (r : Nat) :
    SameOutcome rd writesChar (s.complete rd r) (s'.complete rd r) :=
  ⟨rfl, hr.symm, fun _ => by simp [State.complete], fun _ h => absurd h hw⟩

theorem finish_sameOutcome (hr : s.random = s'.random) (hw : ¬ writesChar) (res : Except Cause Nat) :
    SameOutcome rd writesChar (s.finish rd res) (s'.finish rd res) := by
  cases res with
  | error c => exact takeFault_sameOutcome hr c
  | ok r => exact complete_sameOutcome hr hw r

theorem finishChar_sameOutcome (hr : s.random = s'.random) (res : Except Cause Nat) :
    SameOutcome rd writesChar (s.finishChar rd res) (s'.finishChar rd res) := by
  cases res with
  | error c => exact takeFault_sameOutcome hr c
  | ok r => exact ⟨rfl, hr.symm, fun _ => by simp [State.completeChar], fun _ _ => rfl⟩

theorem finishFermat_sameOutcome (hw : ¬ writesChar) {r : FermatEnd × RandomPort} (h : finishFermat rd s r = .next t) :
    ∃ t', finishFermat rd s' r = .next t' ∧ SameOutcome rd writesChar t t' := by
  obtain ⟨e, p⟩ := r
  cases e with
  | verdict b =>
    injection h with h; subst h
    exact ⟨_, rfl, complete_sameOutcome (s := s.setRandom p) (s' := s'.setRandom p) rfl hw _⟩
  | outOfRange =>
    injection h with h; subst h
    exact ⟨_, rfl, takeFault_sameOutcome (s := s.setRandom p) (s' := s'.setRandom p) rfl _⟩
  | unanswered => cases h

/-- R19, R57: a command reads its sources, `ROUNDS` and the random source, and its end writes what it computed from them. -/
theorem exec_sameOutcome {i : Instr} (hsrc : ∀ r ∈ i.sources, s.src r = s'.src r)
    (hrounds : s.roundCount = s'.roundCount) (hr : s.random = s'.random) (h : exec i s = .next t) :
    ∃ t', exec i s' = .next t' ∧ SameOutcome i.dest (i.mnemonic = "CRTDEC") t t' := by
  cases i with
  | modmul rd a b m =>
    injection h with h; subst h
    obtain ⟨ha, hb, hm⟩ : _ ∧ _ ∧ _ := by simpa [Instr.sources] using hsrc
    rw [ha, hb, hm]
    exact ⟨_, rfl, finish_sameOutcome hr (by simp [Instr.mnemonic]) _⟩
  | modexp rd a b m =>
    injection h with h; subst h
    obtain ⟨ha, hb, hm⟩ : _ ∧ _ ∧ _ := by simpa [Instr.sources] using hsrc
    rw [ha, hb, hm]
    exact ⟨_, rfl, finish_sameOutcome hr (by simp [Instr.mnemonic]) _⟩
  | gcd rd a b =>
    injection h with h; subst h
    obtain ⟨ha, hb⟩ : _ ∧ _ := by simpa [Instr.sources] using hsrc
    rw [ha, hb]
    exact ⟨_, rfl, finish_sameOutcome hr (by simp [Instr.mnemonic]) _⟩
  | modinv rd a m =>
    injection h with h; subst h
    obtain ⟨ha, hm⟩ : _ ∧ _ := by simpa [Instr.sources] using hsrc
    rw [ha, hm]
    exact ⟨_, rfl, finish_sameOutcome hr (by simp [Instr.mnemonic]) _⟩
  | isprime rd a =>
    have ha : s.src a = s'.src a := by simpa [Instr.sources] using hsrc
    rw [exec_isprime, ha, hrounds, hr] at h
    exact finishFermat_sameOutcome (by simp [Instr.mnemonic]) h
  | crtdec rd c d p q =>
    injection h with h; subst h
    obtain ⟨hc, hd, hp, hq⟩ : _ ∧ _ ∧ _ ∧ _ := by simpa [Instr.sources] using hsrc
    rw [hc, hd, hp, hq]
    exact ⟨_, rfl, finishChar_sameOutcome hr _⟩

end SameOutcome

/-- Settles O37, command by command: equal sources give the end of the command the same result. -/
theorem outcomeDependsOnlyOnSources : Obligations.OutcomeDependsOnlyOnSources := by
  intro i s s' t hreg hrounds hr h
  obtain ⟨t', h', same⟩ := exec_sameOutcome (fun r hm => congrArg BitVec.toNat (hreg r hm))
    (congrArg BitVec.toNat hrounds) hr h
  exact ⟨t', h', same.err, same.random, same.reg, same.char⟩

theorem finish_setErr (e : BitVec 8) (rd : Reg) (res : Except Cause Nat) : (s.setErr e).finish rd res = s.finish rd res := by
  cases res <;> rfl

theorem finishChar_setErr (e : BitVec 8) (rd : Reg) (res : Except Cause Nat) :
    (s.setErr e).finishChar rd res = s.finishChar rd res := by
  cases res <;> rfl

theorem finishFermat_setErr (e : BitVec 8) (rd : Reg) (r : FermatEnd × RandomPort) :
    finishFermat rd (s.setErr e) r = finishFermat rd s r := by
  obtain ⟨_ | _ | _, p⟩ := r <;> rfl

/-- Settles O36: no command reads `STATUS.ERR`, and each end of a command overwrites it. -/
theorem commandsIgnoreEarlierStatus : Obligations.CommandsIgnoreEarlierStatus := by
  intro i s e
  cases i with
  | modmul rd a b m => exact congrArg Host.Outcome.next (finish_setErr e rd _)
  | modexp rd a b m => exact congrArg Host.Outcome.next (finish_setErr e rd _)
  | gcd rd a b => exact congrArg Host.Outcome.next (finish_setErr e rd _)
  | modinv rd a m => exact congrArg Host.Outcome.next (finish_setErr e rd _)
  | isprime rd a => exact finishFermat_setErr e rd _
  | crtdec rd c d p q => exact congrArg Host.Outcome.next (finishChar_setErr e rd _)

/-! ### The control registers over the host interface -/

/-- A read of a whole register answers it and records the reply (R31). -/
theorem transact_hostRead (k : Nat) (s : State) :
    transact (.hostRead k) s = .next (s.reply (readReply (hostRead k s))) := rfl

/-- Settles O38: no end of a command writes `CMD`. -/
theorem cmdHoldsTheLastValueWritten : Obligations.CmdHoldsTheLastValueWritten := by
  intro v s t h
  rw [transact_hostRead, hostRead_cmd, hostWrite_cmd_next_cmd h]
  rfl

theorem setRounds_rounds_toNat (v : Word) (s : State) : (s.setRounds v).block.rounds.toNat = v.toNat % 2 ^ 32 := by
  simp

/-- Settles O41: the write stores the low half, and a read zero-extends what is stored (R17, R31). -/
theorem roundsKeepsTheLowHalf : Obligations.RoundsKeepsTheLowHalf := by
  intro s t v h
  have ht : (s.setRounds v).reply .done = t := by injection h
  have hn : t.block.rounds.toNat = v.toNat % 2 ^ 32 := ht ▸ setRounds_rounds_toNat v s
  have hread : t.block.rounds.setWidth 64 = BitVec.ofNat 64 (v.toNat % 2 ^ 32) := by rw [← hn, BitVec.ofNat_toNat]
  have hreplies : t.host.replies = s.host.replies ++ [.done] := ht ▸ rfl
  refine ⟨hn, ?_⟩
  rw [transact_hostRead, hostRead_rounds, hread]
  simp [State.reply, readReply, hreplies]

/-- Settles O43: every field of the reset block is written out, and the eight operand registers are copies of 0. -/
theorem resetValues : Obligations.ResetValues :=
  ⟨fun r => Vector.getElem_replicate r.isLt, rfl, rfl, rfl, rfl⟩

end Sys2Proof.Machine
end

section
/-! PROOFS. The statements of `20_memory.md`: the host transactions, the bus that carries them, and the requests on the
random-source port. -/

namespace Sys2Proof.Machine

variable {s : State}

/-! ### The step -/

theorem step_of_inbox {e : Event} {es : List Event} (h : s.host.inbox = e :: es) :
    step s = deliver e (s.setInbox es) := by
  rw [step, deliverNext, h]

theorem execute_of_decode {v : Word} {i : Instr} (h : decode v = .ok i) (s : State) : execute v s = exec i s := by
  rw [execute, h]

/-- A write to a whole register is `HostWrite(k, v)` (R32). -/
theorem transact_hostWrite (k : Nat) (v : Word) (s : State) : transact (.hostWrite k v) s = hostWrite k v s := rfl

/-- Settles O6: the step delivers the oldest event, and a write to `CMD` executes the value at the state that holds it. -/
theorem stepRunsTheDecodedCommand : Obligations.StepRunsTheDecodedCommand := by
  refine ⟨fun s t es h => step_of_inbox h, fun s v es i h hi => ?_⟩
  calc step s
      = transact (.hostWrite 8 v) (s.setInbox es) := step_of_inbox h
    _ = onNext (·.reply .done) (execute v ((s.setInbox es).setCmd v)) := by rw [transact_hostWrite, hostWrite_cmd]
    _ = onNext (·.reply .done) (exec i ((s.setInbox es).setCmd v)) := by rw [execute_of_decode hi]

/-- Settles O9: the event that has no delivery is the one the step has to deliver (R42). -/
theorem concurrentHostsAreRefused : Obligations.ConcurrentHostsAreRefused :=
  fun _ _ _ _ h => step_of_inbox h

/-! ### Reads and writes of the register map -/

/-- A read shows a narrower field as the word of the same value (R16 to R18, R31). -/
theorem setWidth_eq_of_toNat_eq {n : Nat} {b : BitVec n} {w : Word} (h : w.toNat = b.toNat) : b.setWidth 64 = w := by
  rw [← BitVec.ofNat_toNat, ← h, BitVec.ofNat_toNat, BitVec.setWidth_eq]

/-- Settles O39: for each index the value that the statement names is the one the register map shows. -/
theorem hostReadAnswersTheRegister : Obligations.HostReadAnswersTheRegister := by
  intro s k w hw
  have hread : hostRead k s = some w := by
    rcases hw with ⟨hk, rfl⟩ | ⟨rfl, rfl⟩ | ⟨rfl, he⟩ | ⟨rfl, hn⟩ | ⟨rfl, hc⟩
    · exact hostRead_reg ⟨k, hk⟩
    · exact hostRead_cmd
    · rw [hostRead_status, setWidth_eq_of_toNat_eq he]
    · rw [hostRead_rounds, setWidth_eq_of_toNat_eq hn]
    · rw [hostRead_char, setWidth_eq_of_toNat_eq hc]
  rw [transact_hostRead, hread]
  rfl

theorem hostWrite_reg (r : Reg) (v : Word) (s : State) : hostWrite r.val v s = .next ((s.setReg r v).reply .done) :=
  dif_pos r.isLt

theorem hostWrite_rounds (v : Word) (s : State) : hostWrite 10 v s = .next ((s.setRounds v).reply .done) := rfl

/-- The indices at which a write is refused: `STATUS`, `CHAR` and the reserved ones (R35). -/
theorem hostWrite_refused {k : Nat} (h : k = 9 ∨ k = 11 ∨ 12 ≤ k) (v : Word) (s : State) :
    hostWrite k v s = .next (s.reply .error) := by
  rw [hostWrite, dif_neg (by omega), if_neg (by omega), if_neg (by omega)]

/-- Settles O40, index by index. -/
theorem hostWriteByIndex : Obligations.HostWriteByIndex := by
  intro s v
  refine ⟨fun r => ?_, ?_, ?_, fun k hk => ?_⟩
  · exact hostWrite_reg r v s
  · exact hostWrite_cmd v
  · exact hostWrite_rounds v s
  · exact hostWrite_refused (k := k) (by omega) v s

/-! ### Refused transactions -/

/-- What R35 (c) refuses. -/
theorem Access.coversOne_eq_false_iff {a : Access} : a.coversOne = false ↔ a.offset ≠ 0 ∨ a.width ≠ 64 := by
  simp [Access.coversOne, Classical.or_iff_not_imp_left]

theorem transact_read_refused {a : Access} (h : a.coversOne = false ∨ 12 ≤ a.index) (s : State) :
    transact (.read a) s = .next (s.reply .error) := by
  cases hone : a.coversOne with
  | false => simp [transact, hone]
  | true =>
    have hk : 12 ≤ a.index := by simpa [hone] using h
    simp [transact, hone, hostRead_reserved hk, readReply]

theorem transact_write_refused {a : Access} (h : a.coversOne = false ∨ a.index = 9 ∨ a.index = 11 ∨ 12 ≤ a.index)
    (v : Word) (s : State) : transact (.write a v) s = .next (s.reply .error) := by
  cases hone : a.coversOne with
  | false => simp [transact, hone]
  | true =>
    have hk : a.index = 9 ∨ a.index = 11 ∨ 12 ≤ a.index := by simpa [hone] using h
    simp [transact, hone, hostWrite_refused hk]

/-- Settles O42: an access either has the wrong shape or addresses a register that refuses it. -/
theorem refusedTransactionsChangeNothing : Obligations.RefusedTransactionsChangeNothing := by
  intro s a v
  have hshape := Access.coversOne_eq_false_iff (a := a)
  exact ⟨fun h => transact_read_refused (by rw [hshape]; omega) s,
    fun h => transact_write_refused (by rw [hshape]; omega) v s⟩

/-! ### The bus -/

/-- Division by the stride recovers the index, and its remainder is how far into the register's addresses an access begins. -/
theorem busAccess_busAddress_add {placement : Config.BusPlacement} {extra : Nat} (h : extra < placement.stride)
    (k width : Nat) : busAccess placement (busAddress placement k + extra) width =
      some ⟨k, extra * placement.unitBits, width⟩ := by
  have hsub : busAddress placement k + extra - placement.base = extra + k * placement.stride := by
    rw [busAddress]; omega
  have hpos : 0 < placement.stride := by omega
  rw [busAccess, if_neg (by rw [busAddress]; omega), hsub, Nat.add_mul_div_right _ _ hpos, Nat.div_eq_of_lt h,
    Nat.add_mul_mod_self_right, Nat.mod_eq_of_lt h, Nat.zero_add]

/-- Settles O55: an address `extra` past that of index `k` is in register `k`, `extra` addresses above its low end. -/
theorem everyPlacementReachesEveryRegister : Obligations.EveryPlacementReachesEveryRegister := by
  intro placement k hstride
  refine ⟨?_, fun extra width hextra hunit hshape => ⟨_, busAccess_busAddress_add hextra k width, ?_⟩⟩
  · simpa [Access.whole] using busAccess_busAddress_add hstride k 64
  · have hoffset : extra * placement.unitBits = 0 ↔ extra = 0 := by simp [Nat.ne_of_gt hunit]
    rw [Access.coversOne_eq_false_iff]
    simpa [hoffset] using hshape

/-! ### Requests on the random-source port -/

/-- Settles O24: the port after an ISPRIME that ends is the port after its test, whose draws are its rounds' requests. -/
theorem isprimeRequestsOnlyItsRange : Obligations.IsprimeRequestsOnlyItsRange := by
  intro rd rs1 s t h
  obtain ⟨-, -, -, hrandom⟩ := exec_next h
  obtain ⟨ds, hdraws, hlength, hrequests, -⟩ := fermat_draws (s.src rs1) s.roundCount s.random
  refine ⟨ds, by rw [hrandom rd rs1 rfl, hdraws], hlength, fun d hd => ?_⟩
  obtain ⟨h5, a, rfl⟩ := hrequests d hd
  exact ⟨h5, rfl, witnessRequest_hi_toNat (s.reg rs1) a⟩

end Sys2Proof.Machine
end

section
/-! PROOFS. The statements of `30_encoding.md`: the decoder against the encoder, the masks and the tests of R55, and the command
that a written value runs. -/

namespace Sys2Proof

/-! ### The fields of a command -/

/-- The fields of a command's word, by its row of R53 and its format of R52: what a format does not use is 0. -/
def Instr.fields : Instr → Fields
  | .modmul rd rs1 rs2 rs3     => ⟨0, 0, 0, bitsOfReg rs3, bitsOfReg rs2, bitsOfReg rs1, bitsOfReg rd, 0x01⟩
  | .modexp rd rs1 rs2 rs3     => ⟨0, 0, 0, bitsOfReg rs3, bitsOfReg rs2, bitsOfReg rs1, bitsOfReg rd, 0x02⟩
  | .gcd rd rs1 rs2            => ⟨0, 0, 0, 0, bitsOfReg rs2, bitsOfReg rs1, bitsOfReg rd, 0x03⟩
  | .modinv rd rs1 rs2         => ⟨0, 0, 0, 0, bitsOfReg rs2, bitsOfReg rs1, bitsOfReg rd, 0x04⟩
  | .isprime rd rs1            => ⟨0, 0, 0, 0, 0, bitsOfReg rs1, bitsOfReg rd, 0x05⟩
  | .crtdec rd rs1 rs2 rs3 rs4 => ⟨0, 0, bitsOfReg rs4, bitsOfReg rs3, bitsOfReg rs2, bitsOfReg rs1, bitsOfReg rd, 0x06⟩

/-- Every command's value is cut into its fields, whatever its format. -/
theorem splitFields_commandValue (i : Instr) : splitFields (commandValue i) = i.fields := by
  cases i <;> exact splitFields_assembleWord ..

theorem eq_commandValue_of_splitFields {v : Word} {i : Instr} (h : splitFields v = i.fields) : v = commandValue i := by
  have hhi : i.fields.hi = 0 := by cases i <;> rfl
  have hzero : i.fields.zero = 0 := by cases i <;> rfl
  refine (assembleWord_splitFields (h ▸ hhi) (h ▸ hzero)).trans ?_
  rw [h]
  cases i <;> rfl

/-! ### The decoder on fields -/

/-- A command's fields pass every test of R55. -/
theorem decodeFields_fields (i : Instr) : decodeFields i.fields = .ok i := by
  cases i <;> rfl

theorem requireZero_eq_ok_iff {b : Bool} {i j : Instr} : requireZero b j = .ok i ↔ b = true ∧ j = i := by
  cases b <;> simp [requireZero]

/-- The opcode map answers a command only on that command's fields. -/
theorem decodeOpcode_eq_ok {f : Fields} {i : Instr} (hhi : f.hi = 0) (hzero : f.zero = 0) (h : decodeOpcode f = .ok i) :
    f = i.fields := by
  obtain ⟨_, _, rs4, rs3, rs2, rs1, rd, opcode⟩ := f
  obtain rfl := hhi
  obtain rfl := hzero
  simp only [decodeOpcode] at h
  split_ifs at h with hop hop hop hop hop hop <;>
    simp only [requireZero_eq_ok_iff, Bool.and_eq_true, beq_iff_eq, Except.ok.injEq] at h
  case pos => obtain ⟨rfl, rfl⟩ := h; rw [hop]; rfl
  case pos => obtain ⟨rfl, rfl⟩ := h; rw [hop]; rfl
  case pos => obtain ⟨⟨rfl, rfl⟩, rfl⟩ := h; rw [hop]; rfl
  case pos => obtain ⟨⟨rfl, rfl⟩, rfl⟩ := h; rw [hop]; rfl
  case pos => obtain ⟨⟨⟨rfl, rfl⟩, rfl⟩, rfl⟩ := h; rw [hop]; rfl
  case pos => obtain rfl := h; rw [hop]; rfl

theorem decodeFields_eq_ok {f : Fields} {i : Instr} (h : decodeFields f = .ok i) : f = i.fields := by
  unfold decodeFields at h
  split_ifs at h with hhi hzero
  exact decodeOpcode_eq_ok (not_not.mp hhi) (not_not.mp hzero) h

/-- Settles O2: the value is cut into the command's own fields, and these are decoded to the command. -/
theorem decodeOfEncodeIsIdentity : Obligations.DecodeOfEncodeIsIdentity := by
  intro i
  rw [decode, splitFields_commandValue, decodeFields_fields]

/-- Settles O3: the value's fields are the command's, and with no upper half they make up the value. -/
theorem legalValueIsEncodingOfItsCommand : Obligations.LegalValueIsEncodingOfItsCommand :=
  fun _ _ h => eq_commandValue_of_splitFields (decodeFields_eq_ok h)

/-- Settles O1, word by word: each is a closed value that the decoder evaluates. -/
theorem specWordsDecodeAsWritten : Obligations.SpecWordsDecodeAsWritten := by
  unfold Obligations.SpecWordsDecodeAsWritten
  decide

/-! ### The masks of the opcode table -/

/-- A word under a mask that keeps a slice has the slice of what it must match. -/
theorem extractLsb'_eq_of_and_eq {w mask x : CommandWord} {start len : Nat} (h : w &&& mask = x)
    (hmask : mask.extractLsb' start len = BitVec.allOnes len) : w.extractLsb' start len = x.extractLsb' start len := by
  rw [← h, BitVec.extractLsb'_and, hmask, BitVec.and_allOnes]

theorem splitFields_setWidth (w : CommandWord) : splitFields (w.setWidth 64) =
    { hi := 0, zero := w.extractLsb' 23 9, rs4 := w.extractLsb' 20 3, rs3 := w.extractLsb' 17 3, rs2 := w.extractLsb' 14 3,
      rs1 := w.extractLsb' 11 3, rd := w.extractLsb' 8 3, opcode := w.extractLsb' 0 8 } := by
  have hhi : w.extractLsb' 32 32 = 0 := by
    apply BitVec.eq_of_toNat_eq
    rw [BitVec.extractLsb'_toNat, Nat.shiftRight_eq_zero _ _ w.isLt]
    rfl
  simp [splitFields, BitVec.extractLsb'_setWidth_of_le, hhi]

/-- Every row's mask keeps the opcode and the `zero` field, and the match has the latter 0. -/
theorem opcodeRows_keep_opcode_and_zero : ∀ row ∈ opcodeRows, row.mask.extractLsb' 0 8 = BitVec.allOnes 8 ∧
    row.mask.extractLsb' 23 9 = BitVec.allOnes 9 ∧ row.matchValue.extractLsb' 23 9 = 0 := by decide

/-- Rows are told apart by their mnemonics. -/
theorem opcodeRows_mnemonic_injective : ∀ row ∈ opcodeRows, ∀ row' ∈ opcodeRows,
    row.mnemonic = row'.mnemonic → row = row' := by
  decide

/-- A word that matches a row has the row's opcode, and 0 in each field that the row's format does not use (R52). -/
theorem decode_of_row {w : CommandWord} {row : OpcodeRow} (hrow : row ∈ opcodeRows) (h : w &&& row.mask = row.matchValue) :
    ∃ i : Instr, decode (w.setWidth 64) = .ok i ∧ i.mnemonic = row.mnemonic := by
  have kept (start len : Nat) (hmask : row.mask.extractLsb' start len = BitVec.allOnes len) :=
    extractLsb'_eq_of_and_eq h hmask
  obtain ⟨hopcode, hzero, hmatch⟩ := opcodeRows_keep_opcode_and_zero row hrow
  rw [decode, splitFields_setWidth, kept 0 8 hopcode, kept 23 9 hzero, hmatch]
  simp only [opcodeRows, List.mem_cons, List.not_mem_nil, or_false] at hrow
  rcases hrow with rfl | rfl | rfl | rfl | rfl | rfl
  · rw [kept 20 3 rfl]; exact ⟨_, rfl, rfl⟩
  · rw [kept 20 3 rfl]; exact ⟨_, rfl, rfl⟩
  · rw [kept 20 3 rfl, kept 17 3 rfl]; exact ⟨_, rfl, rfl⟩
  · rw [kept 20 3 rfl, kept 17 3 rfl]; exact ⟨_, rfl, rfl⟩
  · rw [kept 20 3 rfl, kept 17 3 rfl, kept 14 3 rfl]; exact ⟨_, rfl, rfl⟩
  · exact ⟨_, rfl, rfl⟩

/-- Settles O4: a command's word matches its own row (R53), and the mnemonics tell the rows apart. -/
theorem wordIsCommandExactlyWhenMaskMatches : Obligations.WordIsCommandExactlyWhenMaskMatches := by
  intro w row hrow
  refine ⟨decode_of_row hrow, fun ⟨i, hi, hname⟩ => ?_⟩
  obtain ⟨row', hrow', hname', hmatch⟩ := Laws.Encoding.all i
  obtain rfl := opcodeRows_mnemonic_injective row' hrow' row hrow (hname'.trans hname)
  have hw : w = encode i := by
    simpa [commandValue] using congrArg (BitVec.setWidth 32) (legalValueIsEncodingOfItsCommand _ i hi)
  rwa [hw]

/-! ### The four tests of R55 -/

/-- The four tests of R55 on cut fields, whose values `IllegalByTests` gives in numbers. -/
def Fields.Illegal (f : Fields) : Prop :=
  f.hi ≠ 0 ∨ f.zero ≠ 0 ∨ (f.opcode = 0 ∨ 7 ≤ f.opcode) ∨ (f.opcode ≤ 5 ∧ f.rs4 ≠ 0) ∨
  (f.opcode ∈ [3, 4, 5] ∧ f.rs3 ≠ 0) ∨ (f.opcode = 5 ∧ f.rs2 ≠ 0)

theorem illegalByTests_iff {v : Word} : Machine.IllegalByTests v ↔ (splitFields v).Illegal := by
  have hhi : v.toNat / 2 ^ 32 % 2 ^ 32 = v.toNat / 2 ^ 32 := Nat.mod_eq_of_lt (by omega)
  have hop : v.toNat / 2 ^ 0 % 2 ^ 8 = v.toNat % 256 := by omega
  simp only [Machine.IllegalByTests, Fields.Illegal, splitFields, List.mem_cons, List.not_mem_nil, or_false, ne_eq,
    ← BitVec.toNat_inj, BitVec.le_def, toNat_slice, hhi, hop]
  simp

theorem Instr.not_illegal_fields (i : Instr) : ¬ i.fields.Illegal := by
  cases i <;> simp [Fields.Illegal, Instr.fields]

theorem Fields.exists_decodeFields_eq_ok {f : Fields} (h : ¬ f.Illegal) : ∃ i, decodeFields f = .ok i := by
  obtain ⟨hi, zero, rs4, rs3, rs2, rs1, rd, opcode⟩ := f
  simp only [Fields.Illegal, not_or, not_and, not_not] at h
  obtain ⟨rfl, rfl, ⟨h0, h7⟩, h4, h3, h2⟩ := h
  have hop : opcode = 1 ∨ opcode = 2 ∨ opcode = 3 ∨ opcode = 4 ∨ opcode = 5 ∨ opcode = 6 := by
    bv_omega
  rcases hop with rfl | rfl | rfl | rfl | rfl | rfl
  · rw [h4 (by decide)]; exact ⟨_, rfl⟩
  · rw [h4 (by decide)]; exact ⟨_, rfl⟩
  · rw [h4 (by decide), h3 (by decide)]; exact ⟨_, rfl⟩
  · rw [h4 (by decide), h3 (by decide)]; exact ⟨_, rfl⟩
  · rw [h4 (by decide), h3 (by decide), h2 rfl]; exact ⟨_, rfl⟩
  · exact ⟨_, rfl⟩

/-- R55: the tests say exactly which values are commands. -/
theorem exists_decode_eq_ok_iff {v : Word} : (∃ i, decode v = .ok i) ↔ ¬ Machine.IllegalByTests v := by
  rw [illegalByTests_iff]
  refine ⟨fun ⟨i, hi⟩ => ?_, Fields.exists_decodeFields_eq_ok⟩
  rw [decodeFields_eq_ok hi]
  exact i.not_illegal_fields

namespace Machine

/-! ### What a written value does -/

variable {s t : State}

theorem illegalCommand_notMem_causes (i : Instr) : Cause.illegalCommand ∉ i.causes := by
  cases i <;> simp [Instr.causes]

/-- Code 5 is left to the values that are no command (R160). -/
theorem exec_err_ne_illegalCommand {i : Instr} (h : exec i s = .next t) : t.block.err ≠ Cause.illegalCommand.code := by
  rcases (exec_next h).1.err_cases with herr | ⟨c, hc, herr⟩ <;> rw [herr]
  · exact Ne.symm (Cause.code_ne_zero _)
  · exact fun hcode => illegalCommand_notMem_causes i (Cause.code_injective hcode ▸ hc)

theorem execute_of_illegal {v : Word} (h : IllegalByTests v) (s : State) : execute v s = .next (s.takeFault .illegalCommand) := by
  cases hv : decode v with
  | error e => rw [execute, hv]
  | ok i => exact absurd h (exists_decode_eq_ok_iff.mp ⟨i, hv⟩)

/-- Settles O5: the illegal values are those that decode to no command, and no command has IllegalCommand among its causes. -/
theorem illegalValueRaisesIllegalCommand : Obligations.IllegalValueRaisesIllegalCommand := by
  refine fun v => ⟨fun hv s => ?_, fun hv => ?_⟩
  · rw [hostWrite_cmd, execute_of_illegal hv]
    rfl
  · obtain ⟨i, hi⟩ := exists_decode_eq_ok_iff.mpr hv
    refine ⟨⟨i, hi⟩, fun s t h => ?_⟩
    obtain ⟨u, hu, rfl⟩ := hostWrite_cmd_next h
    rw [execute_of_decode hi] at hu
    rw [State.reply_err]
    exact exec_err_ne_illegalCommand hu

/-- A command's word placed by its number is the value that delivers it (R50). -/
theorem tableWordValue_encode (i : Instr) : tableWordValue 32 (encode i).toNat = commandValue i := by
  rw [tableWordValue, Nat.mod_eq_of_lt (encode i).isLt]
  exact BitVec.ofNat_toNat 64 (encode i)

/-- Settles O7: the placed word is the command's value, so O6 is about this step, and O2 says what the value decodes to. -/
theorem placedCommandRunsNext : Obligations.PlacedCommandRunsNext := by
  intro s i
  have hinbox : (s.withFetchWord 32 (encode i).toNat).host.inbox =
      .transaction (.hostWrite 8 (commandValue i)) :: s.host.inbox := by
    rw [← tableWordValue_encode]
    rfl
  exact stepRunsTheDecodedCommand.2 _ _ _ i hinbox (decodeOfEncodeIsIdentity i)

end Machine

end Sys2Proof
end

section
/-! PROOFS. The statement of `40_modmul.md`: MODMUL's result and its one fault. -/

namespace Sys2Proof.Machine

variable {s : State}

/-! ### MODMUL -/

theorem exec_modmul (rd rs1 rs2 rs3 : Reg) :
    exec (.modmul rd rs1 rs2 rs3) s = .next (s.finish rd (modmulCommand (s.src rs1) (s.src rs2) (s.src rs3))) := rfl

theorem modmulCommand_zero (a b : Nat) : modmulCommand a b 0 = .error .modulusZero := rfl

theorem modmulCommand_of_ne_zero {m : Nat} (hm : m ≠ 0) (a b : Nat) : modmulCommand a b m = .ok (modmul a b m) :=
  if_neg hm

theorem modmul_lt {m : Nat} (hm : m ≠ 0) (a b : Nat) : modmul a b m < m := Nat.mod_lt _ (Nat.pos_of_ne_zero hm)

/-- The operands need not be reduced (R70). -/
theorem modmul_residues (a b m : Nat) : modmul a b m = modmul (a % m) (b % m) m := Nat.mul_mod a b m

/-- Settles O10: the remainder is below the modulus, itself a `u64`, so narrowing it to a word loses nothing. -/
theorem modmulWritesExactRemainderOrFaults : Obligations.ModmulWritesExactRemainderOrFaults := by
  intro rd rs1 rs2 rs3 s
  refine ⟨fun hm => ?_, fun hm => ?_⟩
  · have hlt : modmul (s.src rs1) (s.src rs2) (s.src rs3) < s.src rs3 := modmul_lt hm ..
    have hword : (BitVec.ofNat 64 (modmul (s.src rs1) (s.src rs2) (s.src rs3))).toNat =
        modmul (s.src rs1) (s.src rs2) (s.src rs3) :=
      (BitVec.toNat_ofNat ..).trans (Nat.mod_eq_of_lt (hlt.trans (s.src_lt rs3)))
    refine ⟨_, ?_, hword, hword.trans_lt hlt, hword.trans (modmul_residues ..)⟩
    rw [exec_modmul, modmulCommand_of_ne_zero hm, State.finish_ok, State.complete_eq]
  · rw [exec_modmul, hm, modmulCommand_zero, State.finish_error, State.takeFault_eq]
    rfl

end Sys2Proof.Machine
end

section
/-! PROOFS. The statement of `41_modexp.md`: MODEXP's result and its one fault. -/

namespace Sys2Proof.Machine

variable {s : State}

/-! ### MODEXP -/

theorem exec_modexp (rd rs1 rs2 rs3 : Reg) :
    exec (.modexp rd rs1 rs2 rs3) s = .next (s.finish rd (modexpCommand (s.src rs1) (s.src rs2) (s.src rs3))) := rfl

theorem modexpCommand_zero (base exponent : Nat) : modexpCommand base exponent 0 = .error .modulusZero := rfl

theorem modexpCommand_of_ne_zero {base exponent modulus : Nat} (he : exponent < 2 ^ 64) (hm : modulus ≠ 0) :
    modexpCommand base exponent modulus = .ok (base ^ exponent % modulus) :=
  (if_neg hm).trans (congrArg Except.ok (modexp_eq he (Nat.pos_of_ne_zero hm)))

/-- A result below a source operand fits the result register (R5, R75). -/
theorem State.toNat_ofNat_of_lt_src {r : Nat} {rs : Reg} (h : r < s.src rs) : (BitVec.ofNat 64 r).toNat = r :=
  (BitVec.toNat_ofNat ..).trans (Nat.mod_eq_of_lt (h.trans (s.src_lt rs)))

/-- Settles O11: the exponent is a `u64`, so the loop's 64 iterations give the power; the power's remainder is below the
modulus, itself a `u64`, so narrowing it to a word loses nothing. -/
theorem modexpWritesPowerOrFaults : Obligations.ModexpWritesPowerOrFaults := by
  intro rd rs1 rs2 rs3 s
  refine ⟨fun hm => ?_, fun hm => ?_⟩
  · have hlt : s.src rs1 ^ s.src rs2 % s.src rs3 < s.src rs3 := Nat.mod_lt _ (Nat.pos_of_ne_zero hm)
    have hword := State.toNat_ofNat_of_lt_src hlt
    refine ⟨_, ?_, hword, hword.trans_lt hlt⟩
    rw [exec_modexp, modexpCommand_of_ne_zero (s.src_lt rs2) hm, State.finish_ok, State.complete_eq]
  · rw [exec_modexp, hm, modexpCommand_zero, State.finish_error, State.takeFault_eq]
    rfl

end Sys2Proof.Machine
end

section
/-! PROOFS. The statements of `42_gcd_modinv.md`: GCD's result, MODINV's result, its faults and its coefficients. -/

namespace Sys2Proof.Machine

variable {s : State}

/-! ### GCD -/

theorem exec_gcd (rd rs1 rs2 : Reg) :
    exec (.gcd rd rs1 rs2) s = .next (s.finish rd (.ok (euclidGcd (s.src rs1) (s.src rs2)))) := rfl

/-- R90's bound on the result; at a zero operand the result is the other one. -/
theorem gcd_le_max (a b : Nat) : Nat.gcd a b ≤ max a b := by
  rcases Nat.eq_zero_or_pos a with rfl | ha
  · exact (Nat.gcd_zero_left b).le.trans (le_max_right 0 b)
  · exact (Nat.gcd_le_left b ha).trans (le_max_left a b)

/-- Settles O12: the loop's iterations suffice for two `u64` operands, and the divisor is at most the larger of them, so
narrowing it to a word loses nothing. -/
theorem gcdWritesGreatestCommonDivisor : Obligations.GcdWritesGreatestCommonDivisor := by
  intro rd rs1 rs2 s
  have hle : Nat.gcd (s.src rs1) (s.src rs2) ≤ max (s.src rs1) (s.src rs2) := gcd_le_max ..
  have hword : (BitVec.ofNat 64 (Nat.gcd (s.src rs1) (s.src rs2))).toNat = Nat.gcd (s.src rs1) (s.src rs2) :=
    (BitVec.toNat_ofNat ..).trans (Nat.mod_eq_of_lt (hle.trans_lt (max_lt (s.src_lt rs1) (s.src_lt rs2))))
  refine ⟨_, ?_, hword, hword.trans_le hle⟩
  rw [exec_gcd, euclidGcd_eq (s.src_lt rs1) (s.src_lt rs2), State.finish_ok, State.complete_eq]

/-- Settles O13: on `u64` operands the algorithm is `Nat.gcd`, which has these values and is divided by every common
divisor. -/
theorem gcdAtZeroAndItsSymmetry : Obligations.GcdAtZeroAndItsSymmetry := by
  intro a b ha hb
  have h0 : 0 < 2 ^ 64 := by norm_num
  have h1 : 1 < 2 ^ 64 := by norm_num
  rw [euclidGcd_eq ha h0, euclidGcd_eq h0 hb, euclidGcd_eq h0 h0, euclidGcd_eq ha hb, euclidGcd_eq hb ha,
    euclidGcd_eq ha ha, euclidGcd_eq h1 hb, euclidGcd_eq ha h1]
  refine ⟨Nat.gcd_zero_right a, Nat.gcd_zero_left b, Nat.gcd_zero_left 0, Nat.gcd_comm a b, Nat.gcd_self a,
    Nat.gcd_one_left b, Nat.gcd_one_right a,
    fun hne => ⟨Nat.gcd_dvd_left a b, Nat.gcd_dvd_right a b, fun d hda hdb => ?_⟩⟩
  have hpos : 0 < Nat.gcd a b := Nat.pos_of_ne_zero (mt Nat.gcd_eq_zero_iff.mp hne)
  exact Nat.le_of_dvd hpos (Nat.dvd_gcd hda hdb)

/-! ### MODINV -/

theorem exec_modinv (rd rs1 rs2 : Reg) :
    exec (.modinv rd rs1 rs2) s = .next (s.finish rd (modinv (s.src rs1) (s.src rs2))) := rfl

/-- Settles O14: `modinv` answers an inverse below the modulus, and it would answer any other one as well (R95). -/
theorem modinvWritesTheUniqueInverse : Obligations.ModinvWritesTheUniqueInverse := by
  intro rd rs1 rs2 s h2 hg
  obtain ⟨d, hd, hlt, hinv⟩ := modinv_ok (s.src_lt rs1) (s.src_lt rs2) h2 hg
  have hword : (BitVec.ofNat 64 d).toNat = d := State.toNat_ofNat_of_lt_src hlt
  refine ⟨BitVec.ofNat 64 d, ?_, ?_⟩
  · rw [exec_modinv, hd, State.finish_ok, State.complete_eq]
  · rw [hword]
    refine ⟨hlt, hinv, fun d' hlt' hinv' => ?_⟩
    have hd' : modinv (s.src rs1) (s.src rs2) = .ok d' := modinv_eq_ok (s.src_lt rs1) (s.src_lt rs2) hlt' hinv'
    exact Except.ok.inj (hd'.symm.trans hd)

/-- Settles O15: either test of R97 ends the command by `takeFault`, which writes the cause's code only. -/
theorem modinvFaultsInOrder : Obligations.ModinvFaultsInOrder := by
  intro rd rs1 rs2 s
  refine ⟨fun hm => ?_, fun h2 hg => ?_⟩
  · rw [exec_modinv, modinv_degenerate hm, State.finish_error, State.takeFault_eq]
    rfl
  · rw [exec_modinv, modinv_notInvertible (s.src_lt rs1) (s.src_lt rs2) h2 hg, State.finish_error, State.takeFault_eq]
    rfl

/-- The value need not be reduced (R95): congruent values have the same inverses, and the same faults. -/
theorem modinv_congr {a b m : Nat} (ha : a < 2 ^ 64) (hb : b < 2 ^ 64) (hm : m < 2 ^ 64) (h : a ≡ b [MOD m]) :
    modinv a m = modinv b m := by
  rcases Nat.lt_or_ge m 2 with hlt | h2
  · rw [modinv_degenerate (by omega), modinv_degenerate (by omega)]
  · by_cases hg : Nat.gcd a m = 1
    · obtain ⟨d, hd, hdm, hinv⟩ := modinv_ok ha hm h2 hg
      have hinv' : b * d % m = 1 := Eq.trans (h.symm.mul_right d) hinv
      rw [hd, modinv_eq_ok hb hm hdm hinv']
    · rw [modinv_notInvertible ha hm h2 hg, modinv_notInvertible hb hm h2 (h.gcd_eq ▸ hg)]

/-- From R94's start `(1, 0)` no coefficient exceeds the modulus, however many iterations are made (R95). -/
theorem modinvLoop_start_natAbs_le (k a : Nat) {m : Nat} (hm : 0 < m) : (modinvLoop k a m 1 0).2.natAbs ≤ m :=
  modinvLoop_natAbs_le k (by simp) (by simp) hm (Nat.zero_le m)

/-- R94's invariant from its start `(1, 0)`. -/
theorem modinvLoop_start_congr (k a m : Nat) :
    (modinvLoop k a m 1 0).2 * a ≡ (modinvLoop k a m 1 0).1 [ZMOD m] :=
  modinvLoop_congr k (by rw [one_mul]) (by simp [Int.ModEq])

/-- The final coefficient of an invertible value inverts it modulo `m` (R94). -/
theorem modinvLoop_mul_modEq_one {a m : Nat} (ha : a < 2 ^ 64) (hm : m < 2 ^ 64) (hg : Nat.gcd a m = 1) :
    (modinvLoop Config.euclidIterations a m 1 0).2 * a ≡ 1 [ZMOD m] := by
  have hrem : (modinvLoop Config.euclidIterations a m 1 0).1 = 1 :=
    (modinvLoop_fst ..).trans ((euclidGcd_eq ha hm).trans hg)
  have hcongr := modinvLoop_start_congr Config.euclidIterations a m
  rwa [hrem, Nat.cast_one] at hcongr

/-- What inverts a value modulo `m ≥ 2` is no multiple of `m`. -/
theorem natAbs_ne_of_mul_modEq_one {m : Nat} {c a : Int} (h2 : 2 ≤ m) (h : c * a ≡ 1 [ZMOD m]) : c.natAbs ≠ m := by
  intro hc
  have hdvd : (m : Int) ∣ c * a := (Int.natCast_dvd.mpr hc.symm.dvd).mul_right a
  have hone : (m : Int) ∣ 1 := h.dvd_iff.mp hdvd
  have := Int.le_of_dvd one_pos hone
  omega

/-- Settles O16: the coefficients' size is bounded all along the loop, and the final one would only reach the bound as a
multiple of `m`, which inverts nothing. -/
theorem modinvCoefficientsStayBounded : Obligations.ModinvCoefficientsStayBounded := by
  intro a m ha hm h2
  have hle (k : Nat) : (modinvLoop k a m 1 0).2.natAbs ≤ m := modinvLoop_start_natAbs_le k a (by omega)
  refine ⟨?_, hle, fun hg => ?_⟩
  · exact modinv_congr ha ((Nat.mod_le a m).trans_lt ha) hm (Nat.mod_modEq a m).symm
  · exact lt_of_le_of_ne (hle _) (natAbs_ne_of_mul_modEq_one h2 (modinvLoop_mul_modEq_one ha hm hg))

end Sys2Proof.Machine
end

section
/-! PROOFS. The statements of `43_fermat.md`: how ISPRIME ends, by the answers of the random source and by the operand. -/

namespace Sys2Proof.Machine

variable {s t : State}

/-! ### How a test's end becomes the command's end -/

/-- A verdict is a result, written as 1 or 0 (R112). -/
theorem finishFermat_verdict (rd : Reg) (b : Bool) (p : RandomPort) :
    finishFermat rd s (.verdict b, p) = .next { s with
      block := { s.block with x := s.block.x.set rd (if b then 1 else 0), err := 0 }, random := p } := by
  cases b <;> rfl

/-- An answer out of range is a fault, and only `STATUS.ERR` is written (R115, R162). -/
theorem finishFermat_outOfRange (rd : Reg) (p : RandomPort) :
    finishFermat rd s (.outOfRange, p) = .next { s with block := { s.block with err := 6 }, random := p } := rfl

theorem ne_unanswered_of_finishFermat {rd : Reg} {r : FermatEnd × RandomPort} (h : finishFermat rd s r = .next t) :
    r.1 ≠ .unanswered := by
  obtain ⟨e, p⟩ := r
  rintro rfl
  cases h

/-! ### Operands and round counts that need no draw -/

/-- Settles O18: the test answers at once and hands the port on as it was. -/
theorem isprimeSmallOperandsNeedNoDraw : Obligations.IsprimeSmallOperandsNeedNoDraw := by
  intro rd rs1 s h4
  rw [exec_isprime, fermat_of_le_four h4, finishFermat_verdict]
  simp only [decide_eq_true_eq]

/-- With no round to make, only the small cases of R111 are told apart (R116). -/
theorem fermat_zero_rounds (n : Nat) (p : RandomPort) :
    fermat n 0 p = (.verdict (decide ¬ (n ≤ 1 ∨ n = 4)), p) := by
  rcases Nat.lt_or_ge 4 n with h | h
  · rw [fermat_of_five_le h, decide_eq_true (by omega)]
    rfl
  · have hsmall : n = 2 ∨ n = 3 ↔ ¬ (n ≤ 1 ∨ n = 4) := by omega
    rw [fermat_of_le_four h, decide_eq_decide.mpr hsmall]

/-- Settles O19: a `ROUNDS.N` of 0 leaves the loop without a round. -/
theorem isprimeZeroRounds : Obligations.IsprimeZeroRounds := by
  intro rd rs1 s hrounds
  have hcount : s.roundCount = 0 := congrArg BitVec.toNat hrounds
  rw [exec_isprime, hcount, fermat_zero_rounds, finishFermat_verdict]
  simp only [decide_eq_true_eq, ite_not]

/-! ### Scripted answers -/

section Scripted

variable {rs1 : Reg} {good : List Word} {rest : List Answer}

/-- Scripted answers in range that pass are used up, one round each, and the test goes on with the rounds that are left. -/
theorem fermat_good (h5 : 5 ≤ s.src rs1) (hscript : s.random.script = good.map .value ++ rest)
    (hgood : ∀ a ∈ good, InRange (s.src rs1) a ∧ Passes (s.src rs1) a) (left : Nat) :
    fermat (s.src rs1) (good.length + left) s.random =
      fermatRounds (s.src rs1) left ⟨rest, s.random.draws ++ answeredDraws (s.src rs1) good⟩ := by
  rw [fermat_of_five_le h5, ← fermatRounds_good h5 (s.src_lt rs1) rest good left s.random.draws hgood, ← hscript]

/-- The first answer whose round does not pass ends the test: the rounds that were left are not made (R113, R115). -/
theorem fermat_good_then_end {bad : Word} {e : FermatEnd} (h5 : 5 ≤ s.src rs1)
    (hscript : s.random.script = good.map .value ++ .value bad :: rest) (hlt : good.length < s.roundCount)
    (hgood : ∀ a ∈ good, InRange (s.src rs1) a ∧ Passes (s.src rs1) a)
    (hbad : fermatRound (s.src rs1) (.value bad) = some e) :
    fermat (s.src rs1) s.roundCount s.random =
      (e, ⟨rest, s.random.draws ++ answeredDraws (s.src rs1) (good ++ [bad])⟩) := by
  obtain ⟨left, hleft⟩ : ∃ left, s.roundCount = good.length + (left + 1) := ⟨s.roundCount - good.length - 1, by omega⟩
  rw [hleft, fermat_good h5 hscript hgood]
  simp [fermatRounds, hbad, answeredDraws]

end Scripted

/-- Settles O20: the answers use up all rounds, and a loop with no round left says "probably prime". -/
theorem isprimeAllRoundsPass : Obligations.IsprimeAllRoundsPass := by
  intro rd rs1 s good rest h5 hscript hlength hgood
  rw [exec_isprime, ← hlength, ← Nat.add_zero good.length, fermat_good h5 hscript hgood 0]
  exact finishFermat_verdict rd true _

/-- Settles O21: the failing round's end is the verdict "composite". -/
theorem isprimeFirstFailureEndsIt : Obligations.IsprimeFirstFailureEndsIt := by
  intro rd rs1 s good bad rest h5 hscript hlt hgood hrange hfails
  have hbad : fermatRound (s.src rs1) (.value bad) = some (.verdict false) :=
    (fermatRound_pass h5 (s.src_lt rs1) hrange).trans (if_neg hfails)
  rw [exec_isprime, fermat_good_then_end h5 hscript hlt hgood hbad]
  exact finishFermat_verdict rd false _

/-- Settles O22: the round that got the answer ends as WitnessRange, at the port that holds its draw. -/
theorem isprimeOutOfRangeAnswerFaults : Obligations.IsprimeOutOfRangeAnswerFaults := by
  intro rd rs1 s good bad rest h5 hscript hlt hgood hrange
  rw [exec_isprime, fermat_good_then_end h5 hscript hlt hgood (fermatRound_outOfRange hrange), finishFermat_outOfRange]

/-! ### Any answers, scripted or free -/

/-- Settles O50: the answers are those of the rounds loop, and each way it ends is one way the command ends. -/
theorem isprimeOutcomeFollowsItsAnswers : Obligations.IsprimeOutcomeFollowsItsAnswers := by
  intro rd rs1 s t h5 h
  rw [exec_isprime, fermat_of_five_le h5] at h
  obtain ⟨answers, hdraws, hscript, hanswers, hout⟩ :=
    fermatRounds_outcome h5 (s.src_lt rs1) s.roundCount s.random (ne_unanswered_of_finishFermat h)
  obtain ⟨-, hrandom, -⟩ := finishFermat_next h
  refine ⟨answers, hrandom ▸ hdraws, hrandom ▸ hscript, hanswers, ?_⟩
  generalize fermatRounds (s.src rs1) s.roundCount s.random = r at h hout
  obtain ⟨e, p⟩ := r
  rcases hout with ⟨hlength, hall, rfl⟩ | ⟨good, last, heq, hlt, hgood, ⟨hrange, hfails, rfl⟩ | ⟨hrange, rfl⟩⟩
  · rw [finishFermat_verdict] at h
    injection h with h
    exact .inl ⟨hlength, hall, h ▸ rfl⟩
  · rw [finishFermat_verdict] at h
    injection h with h
    exact .inr ⟨good, last, heq, hlt, hgood, .inl ⟨hrange, hfails, h ▸ rfl⟩⟩
  · rw [finishFermat_outOfRange] at h
    injection h with h
    exact .inr ⟨good, last, heq, hlt, hgood, .inr ⟨hrange, h ▸ rfl⟩⟩

/-! ### Primes and a Carmichael number -/

/-- Fermat's little theorem, for every exponent that `p − 1` divides. -/
theorem pow_modEq_one_of_prime {p a k : Nat} (hp : p.Prime) (ha : a.Coprime p) (hk : p - 1 ∣ k) : a ^ k ≡ 1 [MOD p] := by
  obtain ⟨c, rfl⟩ := hk
  have hfermat : a ^ (p - 1) ≡ 1 [MOD p] := Nat.totient_prime hp ▸ Nat.ModEq.pow_totient ha
  simpa [pow_mul] using hfermat.pow c

theorem passes_of_modEq_one {n : Nat} {a : Word} (hn : 1 < n) (h : a.toNat ^ (n - 1) ≡ 1 [MOD n]) : Passes n a :=
  Eq.trans h (Nat.mod_eq_of_lt hn)

/-- For a prime there is no failing witness in range (R114). -/
theorem passes_of_prime {n : Nat} (hn : n.Prime) {a : Word} (h : InRange n a) : Passes n a := by
  obtain ⟨hlo, hhi⟩ := h
  have hcoprime : a.toNat.Coprime n := (Nat.coprime_of_lt_prime (by omega) (by omega) hn).symm
  exact passes_of_modEq_one hn.one_lt (pow_modEq_one_of_prime hn hcoprime dvd_rfl)

/-- Settles O25, from O20: no in-range witness of a prime fails. -/
theorem primesPassForEveryAnswerSequence : Obligations.PrimesPassForEveryAnswerSequence := by
  intro rd rs1 s answers rest h5 hprime hscript hlength hrange
  exact isprimeAllRoundsPass rd rs1 s answers rest h5 hscript hlength
    fun a ha => ⟨hrange a ha, passes_of_prime hprime (hrange a ha)⟩

/-- `p − 1` divides `561 − 1` for each prime factor of `561 = 3·11·17`, so a witness coprime to 561 passes (R114, R118). -/
theorem passes_561_of_coprime {a : Word} (h : a.toNat.Coprime 561) : Passes 561 a := by
  have hfactor {p : Nat} (hp : p.Prime) (hdvd : p ∣ 561) (hk : p - 1 ∣ 561 - 1) : a.toNat ^ (561 - 1) ≡ 1 [MOD p] :=
    pow_modEq_one_of_prime hp (h.coprime_dvd_right hdvd) hk
  have h3 := hfactor (p := 3) (by norm_num) (by norm_num) (by norm_num)
  have h11 := hfactor (p := 11) (by norm_num) (by norm_num) (by norm_num)
  have h17 := hfactor (p := 17) (by norm_num) (by norm_num) (by norm_num)
  have h33 : a.toNat ^ (561 - 1) ≡ 1 [MOD 3 * 11] := (Nat.modEq_and_modEq_iff_modEq_mul (by norm_num)).mp ⟨h3, h11⟩
  have h561 : a.toNat ^ (561 - 1) ≡ 1 [MOD 3 * 11 * 17] :=
    (Nat.modEq_and_modEq_iff_modEq_mul (by norm_num)).mp ⟨h33, h17⟩
  exact passes_of_modEq_one (by norm_num) h561

/-- Settles O26, from O20: no witness coprime to 561 fails. -/
theorem carmichaelNumberPasses : Obligations.CarmichaelNumberPasses := by
  refine ⟨by norm_num, fun rd rs1 s answers rest hn hscript hlength hanswers => ?_⟩
  have hgood : ∀ a ∈ answers, InRange (s.src rs1) a ∧ Passes (s.src rs1) a := by
    intro a ha
    obtain ⟨hrange, hcoprime⟩ := hanswers a ha
    rw [hn]
    exact ⟨hrange, passes_561_of_coprime hcoprime⟩
  refine ⟨_, isprimeAllRoundsPass rd rs1 s answers rest (by omega) hscript hlength hgood, ?_, rfl⟩
  exact Vector.getElem_set_self rd.isLt

end Sys2Proof.Machine
end

section
/-! PROOFS. The statements of `44_crt.md`: CRTDEC's result, its faults, its literal evaluation and the RSA round trip. -/

namespace Sys2Proof.Machine

variable {s t : State}

/-! ### CRT decryption by the tests of R129 -/

/-- The operands `p`, `q` that pass all tests of R129. -/
structure CrtOperands (p q : Nat) : Prop where
  two_le_p : 2 ≤ p
  two_le_q : 2 ≤ q
  mul_lt : p * q < 2 ^ 64
  gcd_eq_one : Nat.gcd q p = 1

section Operands

variable {c d p q : Nat}

theorem left_lt_of_mul_lt (hq : 2 ≤ q) (h : p * q < 2 ^ 64) : p < 2 ^ 64 :=
  (Nat.le_mul_of_pos_right p (by omega)).trans_lt h

theorem right_lt_of_mul_lt (hp : 2 ≤ p) (h : p * q < 2 ^ 64) : q < 2 ^ 64 :=
  (Nat.le_mul_of_pos_left q (by omega)).trans_lt h

theorem crt_of_lt_two (h : p < 2 ∨ q < 2) : crt c d p q = .error .operandRange := if_pos h

theorem crt_of_le_mul (hp : 2 ≤ p) (hq : 2 ≤ q) (h : 2 ^ 64 ≤ p * q) : crt c d p q = .error .operandRange := by
  rw [crt, if_neg (by omega), if_pos h]

theorem crt_of_gcd_ne_one (hp : 2 ≤ p) (hq : 2 ≤ q) (h : p * q < 2 ^ 64) (hg : Nat.gcd q p ≠ 1) :
    crt c d p q = .error .notInvertible := by
  have hinv := modinv_notInvertible (right_lt_of_mul_lt hp h) (left_lt_of_mul_lt hq h) hp hg
  rw [crt, if_neg (by omega), if_neg (by omega), hinv]

/-- Operands that fail a test of R129 raise a fault, the same one whatever `c` and `d` are. -/
theorem crt_eq_error (h : ¬ CrtOperands p q) : ∃ e, ∀ c d, crt c d p q = .error e := by
  by_cases hsmall : p < 2 ∨ q < 2
  · exact ⟨_, fun c d => crt_of_lt_two hsmall⟩
  obtain ⟨hp, hq⟩ : 2 ≤ p ∧ 2 ≤ q := by omega
  rcases Nat.lt_or_ge (p * q) (2 ^ 64) with hlt | hle
  · exact ⟨_, fun c d => crt_of_gcd_ne_one hp hq hlt fun hg => h ⟨hp, hq, hlt, hg⟩⟩
  · exact ⟨_, fun c d => crt_of_le_mul hp hq hle⟩

/-- Operands that pass the tests of R129 are recombined with the inverse of `q` modulo `p` (R126 step 3). -/
theorem CrtOperands.crt_eq_ok (h : CrtOperands p q) :
    ∃ qInv, qInv < p ∧ q * qInv % p = 1 ∧ ∀ c d, crt c d p q = .ok (crtRecombine qInv c d p q) := by
  obtain ⟨hp, hq, hlt, hg⟩ := h
  obtain ⟨qInv, hinv, hqInv, hone⟩ := modinv_ok (right_lt_of_mul_lt hp hlt) (left_lt_of_mul_lt hq hlt) hp hg
  refine ⟨qInv, hqInv, hone, fun c d => ?_⟩
  rw [crt, if_neg (by omega), if_neg (by omega), hinv]

/-! ### The recombination (R126, R130, R132) -/

/-- The floor modulus of R130 is not negative, so the coefficient is it. -/
theorem crtCoefficient_cast {qInv m1 m2 : Nat} (hp : 0 < p) :
    (crtCoefficient qInv m1 m2 p : Int) = (qInv * (m1 - m2 + p)) % p :=
  Int.toNat_of_nonneg (Int.emod_nonneg _ (by omega))

/-- The partial powers of R126 steps 4 and 5. -/
theorem modexp_reduced_eq {m : Nat} (hd : d < 2 ^ 64) (hm : 0 < m) :
    modexp c (d % (m - 1)) m = c ^ (d % (m - 1)) % m :=
  modexp_eq ((Nat.mod_le d (m - 1)).trans_lt hd) hm

theorem crtRecombine_eq (qInv c : Nat) (hd : d < 2 ^ 64) (hp : 0 < p) (hq : 0 < q) :
    crtRecombine qInv c d p q = c ^ (d % (q - 1)) % q +
      crtCoefficient qInv (c ^ (d % (p - 1)) % p) (c ^ (d % (q - 1)) % q) p * q := by
  simp only [crtRecombine, modexp_reduced_eq hd hp, modexp_reduced_eq hd hq]

/-- R132's bound: `m2 ≤ q − 1` and `h ≤ p − 1`. -/
theorem crtRecombine_lt (qInv c : Nat) (hd : d < 2 ^ 64) (hp : 0 < p) (hq : 0 < q) : crtRecombine qInv c d p q < p * q := by
  rw [crtRecombine_eq qInv c hd hp hq]
  set m2 := c ^ (d % (q - 1)) % q
  set h := crtCoefficient qInv (c ^ (d % (p - 1)) % p) m2 p
  have hm2 : m2 < q := Nat.mod_lt _ hq
  have hh : h + 1 ≤ p := crtCoefficient_lt hp
  calc m2 + h * q < (h + 1) * q := by rw [add_one_mul]; omega
    _ ≤ p * q := Nat.mul_le_mul_right q hh

theorem crtRecombine_mod_q (qInv c : Nat) (hd : d < 2 ^ 64) (hp : 0 < p) (hq : 0 < q) :
    crtRecombine qInv c d p q % q = c ^ (d % (q - 1)) % q := by
  rw [crtRecombine_eq qInv c hd hp hq, Nat.add_mul_mod_self_right, Nat.mod_mod]

theorem crtRecombine_mod_p {qInv : Nat} (c : Nat) (hd : d < 2 ^ 64) (hp : 2 ≤ p) (hq : 0 < q) (hinv : q * qInv % p = 1) :
    crtRecombine qInv c d p q % p = c ^ (d % (p - 1)) % p := by
  rw [crtRecombine_eq qInv c hd (by omega) hq, crtCoefficient_mul hp hinv, Nat.mod_mod]

/-- The residue `c` counts only modulo `p·q`: it is reduced modulo either factor (R128 item 1). -/
theorem crtRecombine_mod_mul (qInv c : Nat) (hd : d < 2 ^ 64) (hp : 0 < p) (hq : 0 < q) :
    crtRecombine qInv (c % (p * q)) d p q = crtRecombine qInv c d p q := by
  have hmodp (k : Nat) : (c % (p * q)) ^ k % p = c ^ k % p := ((Nat.mod_modEq c (p * q)).of_mul_right q).pow k
  have hmodq (k : Nat) : (c % (p * q)) ^ k % q = c ^ k % q := ((Nat.mod_modEq c (p * q)).of_mul_left p).pow k
  rw [crtRecombine_eq _ _ hd hp hq, crtRecombine_eq _ _ hd hp hq, hmodp, hmodq]

end Operands

/-- Settles O30: the tests of R129 do not read `c`, and the recombination reads it modulo `p·q`. -/
theorem crtdecReducesItsResidue : Obligations.CrtdecReducesItsResidue := by
  intro c d p q _ hd _ _
  by_cases h : CrtOperands p q
  · obtain ⟨qInv, -, -, hok⟩ := h.crt_eq_ok
    rw [hok, hok, crtRecombine_mod_mul qInv c hd (Nat.zero_lt_of_lt h.two_le_p) (Nat.zero_lt_of_lt h.two_le_q)]
  · obtain ⟨e, herror⟩ := crt_eq_error h
    rw [herror, herror]

/-! ### The command -/

theorem State.complete_src_self {rd : Reg} {r : Nat} (h : r < 2 ^ 64) : (s.complete rd r).src rd = r := by
  simpa [State.complete, State.setReg_src] using h

theorem State.complete_src_ne {rd r' : Reg} (r : Nat) (h : r' ≠ rd) : (s.complete rd r).src r' = s.src r' := by
  simp [State.complete, State.setReg_src, h.symm]

theorem State.completeChar_src_self {rd : Reg} {r : Nat} (h : r < 2 ^ 64) : (s.completeChar rd r).src rd = r := by
  simpa [State.completeChar, State.setReg_src] using h

theorem charOf_toNat (r : Nat) : (charOf r).toNat = r % 256 := BitVec.toNat_ofNat r 8

/-- Truncation to a character takes the low 8 bits of the word written (R127). -/
theorem charOf_eq_extractLsb' (r : Nat) : charOf r = (BitVec.ofNat 64 r).extractLsb' 0 8 := by
  apply BitVec.eq_of_toNat_eq
  rw [charOf_toNat, BitVec.extractLsb'_toNat, BitVec.toNat_ofNat, Nat.shiftRight_zero]
  omega

theorem exec_crtdec (rd rs1 rs2 rs3 rs4 : Reg) : exec (.crtdec rd rs1 rs2 rs3 rs4) s =
    .next (s.finishChar rd (crt (s.src rs1) (s.src rs2) (s.src rs3) (s.src rs4))) := rfl

section Command

variable {rd rs1 rs2 rs3 rs4 : Reg}

/-- A fault of CRTDEC writes the cause's code only (R162). -/
theorem exec_crtdec_of_error {e : Cause} (h : crt (s.src rs1) (s.src rs2) (s.src rs3) (s.src rs4) = .error e) :
    exec (.crtdec rd rs1 rs2 rs3 rs4) s = .next { s with block := { s.block with err := e.code } } := by
  rw [exec_crtdec, h, State.finishChar_error, State.takeFault_eq]

theorem exec_crtdec_of_ok {r : Nat} (h : crt (s.src rs1) (s.src rs2) (s.src rs3) (s.src rs4) = .ok r) :
    exec (.crtdec rd rs1 rs2 rs3 rs4) s = .next (s.completeChar rd r) := by
  rw [exec_crtdec, h, State.finishChar_ok]

/-- A CRTDEC that ends with `STATUS.ERR = 0` had operands that pass R129's tests. -/
theorem crtOperands_of_exec (h : exec (.crtdec rd rs1 rs2 rs3 rs4) s = .next t) (herr : t.block.err = 0) :
    CrtOperands (s.src rs3) (s.src rs4) := by
  by_contra hfails
  obtain ⟨e, he⟩ := crt_eq_error hfails
  rw [exec_crtdec_of_error (he _ _)] at h
  injection h with h
  subst h
  exact e.code_ne_zero herr

end Command

/-- Settles O27: the result is the recombination, whose powers and coefficient are those over the integers; it lies below
`p·q`, so narrowing it to a word loses nothing. -/
theorem crtdecWritesTheRecombination : Obligations.CrtdecWritesTheRecombination := by
  intro rd rs1 rs2 rs3 rs4 s hp hq hlt hg
  have hp0 : 0 < s.src rs3 := by omega
  have hq0 : 0 < s.src rs4 := by omega
  have hd := s.src_lt rs2
  obtain ⟨qInv, hqInv, hone, hok⟩ := CrtOperands.crt_eq_ok ⟨hp, hq, hlt, hg⟩
  have hword : (BitVec.ofNat 64 (crtRecombine qInv (s.src rs1) (s.src rs2) (s.src rs3) (s.src rs4))).toNat =
      crtRecombine qInv (s.src rs1) (s.src rs2) (s.src rs3) (s.src rs4) :=
    (BitVec.toNat_ofNat ..).trans (Nat.mod_eq_of_lt ((crtRecombine_lt qInv _ hd hp0 hq0).trans hlt))
  refine ⟨_, qInv, _, _, _, ?_, hqInv, hone, rfl, rfl, crtCoefficient_lt hp0, crtCoefficient_cast hp0,
    hword.trans (crtRecombine_eq qInv _ hd hp0 hq0)⟩
  rw [exec_crtdec_of_ok (hok _ _), State.completeChar_eq, charOf_eq_extractLsb']

/-- Settles O28: each test of R129 that fails gives `crt` its cause, whose code is all that is written. -/
theorem crtdecFaultsInOrder : Obligations.CrtdecFaultsInOrder := by
  intro rd rs1 rs2 rs3 rs4 s
  refine ⟨fun h => ?_, fun hp hq h => ?_, fun hp hq hlt hg => ?_, fun hp hq hlt hg => ?_⟩
  · exact exec_crtdec_of_error (crt_of_lt_two h)
  · exact exec_crtdec_of_error (crt_of_le_mul hp hq h)
  · exact exec_crtdec_of_error (crt_of_gcd_ne_one hp hq hlt hg)
  · obtain ⟨qInv, -, -, hok⟩ := CrtOperands.crt_eq_ok ⟨hp, hq, hlt, hg⟩
    exact ⟨_, exec_crtdec_of_ok (hok _ _), rfl⟩

/-- Settles O29: without a fault the recombination was written, and its bound and residues are R132's. -/
theorem crtdecResultHasBothResidues : Obligations.CrtdecResultHasBothResidues := by
  intro rd rs1 rs2 rs3 rs4 s t h herr
  have hops := crtOperands_of_exec h herr
  have hq0 : 0 < s.src rs4 := Nat.zero_lt_of_lt hops.two_le_q
  have hd := s.src_lt rs2
  obtain ⟨qInv, -, hone, hok⟩ := hops.crt_eq_ok
  rw [exec_crtdec_of_ok (hok _ _)] at h
  injection h with h
  subst h
  have hlt := crtRecombine_lt qInv (s.src rs1) hd (Nat.zero_lt_of_lt hops.two_le_p) hq0
  rw [← State.src, State.completeChar_src_self (hlt.trans hops.mul_lt)]
  exact ⟨Nat.le_sub_one_of_lt hlt, crtRecombine_mod_q qInv _ hd (Nat.zero_lt_of_lt hops.two_le_p) hq0,
    crtRecombine_mod_p _ hd hops.two_le_p hq0 hone⟩

/-- Settles O31, from O28 and O29: `d mod (2 − 1) = 0`, so the residue modulo 2 is that of an empty product. -/
theorem crtdecWithPrimeTwoIsLiteral : Obligations.CrtdecWithPrimeTwoIsLiteral := by
  refine ⟨rfl, fun rd rs1 rs2 rs3 rs4 s hp hodd hq hlt => ?_⟩
  have hg : Nat.gcd (s.src rs4) (s.src rs3) = 1 := by
    rw [hp]
    exact (Nat.odd_iff.mpr hodd).coprime_two_right
  obtain ⟨-, -, -, hok⟩ := crtdecFaultsInOrder rd rs1 rs2 rs3 rs4 s
  obtain ⟨t, hexec, herr⟩ := hok (by omega) (by omega) (by rwa [hp]) hg
  obtain ⟨-, -, hres⟩ := crtdecResultHasBothResidues rd rs1 rs2 rs3 rs4 s t hexec herr
  refine ⟨t, hexec, herr, ?_⟩
  simpa [hp, Nat.mod_one] using hres

/-! ### The round trip (R133) -/

/-- Fermat's little theorem for every base: a positive exponent congruent to 1 modulo `p − 1` changes no residue. -/
theorem pow_modEq_self_of_prime {p a k : Nat} (hp : p.Prime) (hk0 : 1 ≤ k) (hk : k ≡ 1 [MOD p - 1]) :
    a ^ k ≡ a [MOD p] := by
  by_cases hcop : a.Coprime p
  · have hdvd : p - 1 ∣ k - 1 := (Nat.modEq_iff_dvd' hk0).mp hk.symm
    have hone := (pow_modEq_one_of_prime hp hcop hdvd).mul_right a
    rwa [one_mul, pow_sub_one_mul (by omega)] at hone
  · have hdvd : p ∣ a := not_not.mp fun h => hcop (hp.coprime_iff_not_dvd.mpr h).symm
    exact ((dvd_pow hdvd (by omega)).modEq_zero_nat).trans hdvd.modEq_zero_nat.symm

/-- Modulo an odd prime, `e` and then the reduced exponent `d mod (p − 1)` give the value back. An odd prime, because at
`p − 1 = 1` the reduced exponent is 0 (R128 item 2). -/
theorem pow_pow_mod_modEq_self {p e d : Nat} (hp : p.Prime) (h2 : p ≠ 2) (hed : e * d ≡ 1 [MOD p - 1]) (a : Nat) :
    (a ^ e) ^ (d % (p - 1)) ≡ a [MOD p] := by
  have hp2 : 2 ≤ p := hp.two_le
  have hk : e * (d % (p - 1)) ≡ 1 [MOD p - 1] := ((Nat.mod_modEq d (p - 1)).mul_left e).trans hed
  have hk0 : e * (d % (p - 1)) ≠ 0 := by
    intro h0
    rw [h0, Nat.ModEq, Nat.zero_mod, Nat.mod_eq_of_lt (by omega)] at hk
    omega
  rw [← pow_mul]
  exact pow_modEq_self_of_prime hp (by omega) hk

/-- The round trip over the integers: for distinct odd primes CRT decryption inverts the power (R133). -/
theorem crt_of_encrypted {p q e d m : Nat} (hp : p.Prime) (hq : q.Prime) (hne : p ≠ q) (hp2 : p ≠ 2) (hq2 : q ≠ 2)
    (hlt : p * q < 2 ^ 64) (hd : d < 2 ^ 64) (hed : e * d % ((p - 1) * (q - 1)) = 1) (hm : m < p * q) :
    crt (m ^ e % (p * q)) d p q = .ok m := by
  have hcop : p.Coprime q := (Nat.coprime_primes hp hq).mpr hne
  have hops : CrtOperands p q := ⟨hp.two_le, hq.two_le, hlt, hcop.symm⟩
  have hone : e * d ≡ 1 [MOD (p - 1) * (q - 1)] := by
    have hmod := (Nat.mod_modEq (e * d) ((p - 1) * (q - 1))).symm
    rwa [hed] at hmod
  obtain ⟨qInv, -, hinv, hok⟩ := hops.crt_eq_ok
  rw [hok, crtRecombine_mod_mul qInv _ hd hp.pos hq.pos]
  have hresp : crtRecombine qInv (m ^ e) d p q ≡ m [MOD p] :=
    Eq.trans (crtRecombine_mod_p _ hd hp.two_le hq.pos hinv) (pow_pow_mod_modEq_self hp hp2 (hone.of_mul_right _) m)
  have hresq : crtRecombine qInv (m ^ e) d p q ≡ m [MOD q] :=
    Eq.trans (crtRecombine_mod_q qInv _ hd hp.pos hq.pos) (pow_pow_mod_modEq_self hq hq2 (hone.of_mul_left _) m)
  have hres : crtRecombine qInv (m ^ e) d p q ≡ m [MOD p * q] :=
    (Nat.modEq_and_modEq_iff_modEq_mul hcop).mp ⟨hresp, hresq⟩
  exact congrArg Except.ok (hres.eq_of_lt_of_lt (crtRecombine_lt qInv _ hd hp.pos hq.pos) hm)

/-- Settles O32: MODEXP leaves the encrypted value in `rc` and the key where it was, and CRTDEC inverts it. -/
theorem encryptionThenCrtDecryptionRoundTrips : Obligations.EncryptionThenCrtDecryptionRoundTrips := by
  intro rb re rn rc rx rp rq rd s p q hp hq hne hp2 hq2 hlt hn hrp hrq hed hbase hx hpc hqc
  have hn0 : p * q ≠ 0 := mul_ne_zero hp.ne_zero hq.ne_zero
  have hfits : s.src rb ^ s.src re % (p * q) < 2 ^ 64 := (Nat.mod_lt _ (Nat.pos_of_ne_zero hn0)).trans hlt
  have hmodexp : exec (.modexp rc rb re rn) s = .next (s.complete rc (s.src rb ^ s.src re % (p * q))) := by
    rw [exec_modexp, hn, modexpCommand_of_ne_zero (s.src_lt re) hn0, State.finish_ok]
  refine ⟨_, _, hmodexp, rfl, exec_crtdec_of_ok (r := s.src rb) ?_, rfl, State.completeChar_src_self (s.src_lt rb),
    charOf_toNat _⟩
  rw [State.complete_src_self hfits, State.complete_src_ne _ hx, State.complete_src_ne _ hpc,
    State.complete_src_ne _ hqc, hrp, hrq]
  exact crt_of_encrypted hp hq hne hp2 hq2 hlt (s.src_lt rx) hed hbase

end Sys2Proof.Machine
end

section
/-! PROOFS. The statements of `45_host_procedures.md`: what the host procedures return, over the register rules of one `WR` and of
one command line. -/

namespace Sys2Proof.Machine

variable {s t : State}

/-! ### One `WR`, one `RD`, one command line -/

/-- The state after a `WR` of an operand register (R32, R60). -/
def State.afterWr (s : State) (r : Reg) (v : Word) : State := (s.setReg r v).reply .done

@[simp] theorem State.afterWr_reg (r r' : Reg) (v : Word) : (s.afterWr r v).reg r' = if r = r' then v else s.reg r' :=
  s.setReg_reg r r' v

@[simp] theorem State.afterWr_src (r r' : Reg) (v : Word) :
    (s.afterWr r v).src r' = if r = r' then v.toNat else s.src r' :=
  s.setReg_src r r' v

@[simp] theorem hostWr_of_lt {k : Nat} (hk : k < 8) (v : Word) : hostWr k v s = .done () (s.afterWr ⟨k, hk⟩ v) :=
  hostWr_reg ⟨k, hk⟩ v

@[simp] theorem hostRd_of_lt {k : Nat} (hk : k < 8) : hostRd k s = s.reg ⟨k, hk⟩ := hostRd_reg ⟨k, hk⟩

/-- The state after a command line whose command completed with result `r` (R57, R60). -/
def State.afterCommand (s : State) (i : Instr) (r : Nat) : State :=
  ((s.setCmd (commandValue i)).complete i.dest r).reply .done

@[simp] theorem State.afterCommand_reg (i : Instr) (r : Nat) (r' : Reg) :
    (s.afterCommand i r).reg r' = if i.dest = r' then BitVec.ofNat 64 r else s.reg r' :=
  (s.setCmd (commandValue i)).setReg_reg i.dest r' _

@[simp] theorem State.afterCommand_src (i : Instr) (r : Nat) (r' : Reg) :
    (s.afterCommand i r).src r' = if i.dest = r' then r % 2 ^ 64 else s.src r' := by
  rw [State.src, State.afterCommand_reg, apply_ite BitVec.toNat, BitVec.toNat_ofNat, State.src]

/-- A command line whose command ends without fault is done (R57, R60). -/
theorem hostCommand_of_exec {i : Instr} {u : State} (h : exec i (s.setCmd (commandValue i)) = .next u)
    (herr : u.block.err = 0) : hostCommand i s = .done () (u.reply .done) :=
  (hostCommand_eq_done (decodeOfEncodeIsIdentity i)).mpr ⟨u, h, herr, rfl⟩

/-- A command line whose function answers `r` is done and leaves `r` in the destination (R57 step 6). -/
theorem hostCommand_of_finish {i : Instr} {res : Except Cause Nat} {r : Nat}
    (h : exec i (s.setCmd (commandValue i)) = .next ((s.setCmd (commandValue i)).finish i.dest res)) (hres : res = .ok r) :
    hostCommand i s = .done () (s.afterCommand i r) := by
  subst hres
  exact hostCommand_of_exec h rfl

@[simp] theorem hostCommand_gcd (rd rs1 rs2 : Reg) : hostCommand (.gcd rd rs1 rs2) s =
    .done () (s.afterCommand (.gcd rd rs1 rs2) (Nat.gcd (s.src rs1) (s.src rs2))) :=
  hostCommand_of_finish (exec_gcd rd rs1 rs2) (congrArg Except.ok (euclidGcd_eq (s.src_lt rs1) (s.src_lt rs2)))

theorem hostCommand_modmul {rd rs1 rs2 rs3 : Reg} (hm : s.src rs3 ≠ 0) : hostCommand (.modmul rd rs1 rs2 rs3) s =
    .done () (s.afterCommand (.modmul rd rs1 rs2 rs3) (s.src rs1 * s.src rs2 % s.src rs3)) :=
  hostCommand_of_finish (exec_modmul rd rs1 rs2 rs3) (modmulCommand_of_ne_zero hm (s.src rs1) (s.src rs2))

theorem hostCommand_modexp {rd rs1 rs2 rs3 : Reg} (hm : s.src rs3 ≠ 0) : hostCommand (.modexp rd rs1 rs2 rs3) s =
    .done () (s.afterCommand (.modexp rd rs1 rs2 rs3) (s.src rs1 ^ s.src rs2 % s.src rs3)) :=
  hostCommand_of_finish (exec_modexp rd rs1 rs2 rs3) (modexpCommand_of_ne_zero (s.src_lt rs2) hm)

theorem hostCommand_modinv {rd rs1 rs2 : Reg} {d : Nat} (h : modinv (s.src rs1) (s.src rs2) = .ok d) :
    hostCommand (.modinv rd rs1 rs2) s = .done () (s.afterCommand (.modinv rd rs1 rs2) d) :=
  hostCommand_of_finish (exec_modinv rd rs1 rs2) h

/-- A CRTDEC line shows its result's low byte in `CHAR` (R127). -/
theorem hostCommand_crtdec {rd rs1 rs2 rs3 rs4 : Reg} {r : Nat}
    (h : crt (s.src rs1) (s.src rs2) (s.src rs3) (s.src rs4) = .ok r) :
    ∃ u, hostCommand (.crtdec rd rs1 rs2 rs3 rs4) s = .done () u ∧ u.block.char = charOf r :=
  ⟨_, hostCommand_of_exec (exec_crtdec_of_ok (r := r) h) rfl, rfl⟩

/-- A command line writes no operand register but its destination (R13). -/
theorem hostCommand_reg_ne {i : Instr} {r : Reg} (h : hostCommand i s = .done () t) (hr : r ≠ i.dest) :
    t.reg r = s.reg r := by
  obtain ⟨u, hu, -, rfl⟩ := (hostCommand_eq_done (decodeOfEncodeIsIdentity i)).mp h
  exact (exec_next hu).1.reg_eq hr

theorem hostCommand_src_ne {i : Instr} {r : Reg} (h : hostCommand i s = .done () t) (hr : r ≠ i.dest) :
    t.src r = s.src r :=
  congrArg BitVec.toNat (hostCommand_reg_ne h hr)

/-- A value that ISPRIME accepts is at least 2 and not 4, whatever the random source answers (R111). -/
theorem two_le_and_ne_four_of_accepted {rd rs1 : Reg} (h : hostCommand (.isprime rd rs1) s = .done () t)
    (haccept : t.reg rd = 1) : 2 ≤ s.src rs1 ∧ s.src rs1 ≠ 4 := by
  rcases Nat.lt_or_ge 4 (s.src rs1) with h5 | h4
  · omega
  · have hexec := isprimeSmallOperandsNeedNoDraw rd rs1 (s.setCmd (commandValue (.isprime rd rs1))) h4
    rw [hostCommand_of_exec hexec rfl] at h
    injection h with _ h
    have hresult : t.reg rd = if s.src rs1 = 2 ∨ s.src rs1 = 3 then 1 else 0 := h ▸ Vector.getElem_set_self rd.isLt
    have hprime : s.src rs1 = 2 ∨ s.src rs1 = 3 := by
      by_contra hnot
      rw [hresult, if_neg hnot] at haccept
      exact absurd haccept (by decide)
    omega

/-! ### `encrypt` and `decrypt` (R140, R141) -/

theorem codePointOf_toNat (ch : Char8) : (codePointOf ch).toNat = ch.toNat := BitVec.toNat_setWidth_of_le (by decide)

/-- The loop leaves the key in `x1`, `x2`, so each character is raised to the same power. -/
theorem encryptLoop_eq_map (message : List Char8) : ∀ {s : State}, s.src 2 ≠ 0 → ∃ t, encryptLoop message s =
    .done (message.map fun ch => BitVec.ofNat 64 (ch.toNat ^ s.src 1 % s.src 2)) t := by
  induction message with
  | nil => intro s _; exact ⟨s, rfl⟩
  | cons ch rest ih =>
    intro s hn
    obtain ⟨u, hcommand, hresult⟩ : ∃ u, hostCommand (.modexp 3 0 1 2) (s.afterWr 0 (codePointOf ch)) = .done () u ∧
        u.reg 3 = BitVec.ofNat 64 (ch.toNat ^ s.src 1 % s.src 2) :=
      ⟨_, hostCommand_modexp (by simpa using hn), by simp [codePointOf_toNat, Instr.dest]⟩
    have hkey (r : Reg) (hr : r ≠ 3) (hr0 : r ≠ 0) : u.src r = s.src r := by
      rw [hostCommand_src_ne hcommand hr, State.afterWr_src, if_neg hr0.symm]
    have hkey1 : u.src 1 = s.src 1 := hkey 1 (by decide) (by decide)
    have hkey2 : u.src 2 = s.src 2 := hkey 2 (by decide) (by decide)
    obtain ⟨t, ht⟩ := ih (hkey2 ▸ hn)
    exact ⟨t, by simp [encryptLoop, hcommand, ht, hresult, hkey1, hkey2]⟩

/-- Settles O48: the two `WR` put the key where the loop reads it. -/
theorem encryptMapsEachCharacter : Obligations.EncryptMapsEachCharacter := by
  intro message e n s hn
  have hmod : ((s.afterWr 1 e).afterWr 2 n).src 2 ≠ 0 := by simpa [← BitVec.toNat_inj] using hn
  obtain ⟨t, ht⟩ := encryptLoop_eq_map message hmod
  exact ⟨t, by simpa [encrypt] using ht⟩

/-- What `RD CHAR` shows is the character, zero-extended (R18). -/
theorem extractLsb'_hostRd_char : (hostRd 11 s).extractLsb' 0 8 = s.block.char := by
  rw [hostRd_char, BitVec.extractLsb'_setWidth_of_le (by decide), BitVec.extractLsb'_eq_self]

/-- The loop leaves the key in `x4`, `x5`, `x6`, so residues that CRT decryption maps to a message's characters give it back. -/
theorem decryptLoop_map_eq {residue : Char8 → Word} (message : List Char8) : ∀ {s : State},
    (∀ ch ∈ message, crt (residue ch).toNat (s.src 4) (s.src 5) (s.src 6) = .ok ch.toNat) →
    ∃ t, decryptLoop (message.map residue) s = .done message t := by
  induction message with
  | nil => intro s _; exact ⟨s, rfl⟩
  | cons ch rest ih =>
    intro s h
    obtain ⟨hch, hrest⟩ := List.forall_mem_cons.mp h
    obtain ⟨u, hcommand, hchar⟩ : ∃ u, hostCommand (.crtdec 7 3 4 5 6) (s.afterWr 3 (residue ch)) = .done () u ∧
        u.block.char = charOf ch.toNat := hostCommand_crtdec (by simpa using hch)
    have hkey (r : Reg) (hr : r ≠ 7) (hr3 : r ≠ 3) : u.src r = s.src r := by
      rw [hostCommand_src_ne hcommand hr, State.afterWr_src, if_neg hr3.symm]
    obtain ⟨t, ht⟩ := ih (s := u) (by rwa [hkey 4, hkey 5, hkey 6] <;> decide)
    exact ⟨t, by simp [decryptLoop, hcommand, ht, extractLsb'_hostRd_char, hchar, charOf]⟩

/-- `decrypt` gives back the message whose residues CRT decryption under the key maps to its characters. -/
theorem decrypt_map_eq {residue : Char8 → Word} {message : List Char8} {d p q : Word}
    (h : ∀ ch ∈ message, crt (residue ch).toNat d.toNat p.toNat q.toNat = .ok ch.toNat) (s : State) :
    ∃ t, decrypt (message.map residue) d p q s = .done message t := by
  obtain ⟨t, ht⟩ := decryptLoop_map_eq (residue := residue) (s := ((s.afterWr 4 d).afterWr 5 p).afterWr 6 q) message
    (by simpa using h)
  exact ⟨t, by simpa [decrypt] using ht⟩

/-- Settles O49: `encrypt` gives the powers, which CRT decryption inverts one by one (R133). -/
theorem decryptOfEncryptIsTheMessage : Obligations.DecryptOfEncryptIsTheMessage := by
  intro message e d p q s hp hq hne hp2 hq2 hlt hed hmessage
  have hn0 : p.toNat * q.toNat ≠ 0 := mul_ne_zero hp.ne_zero hq.ne_zero
  have hn : (BitVec.ofNat 64 (p.toNat * q.toNat)).toNat = p.toNat * q.toNat :=
    (BitVec.toNat_ofNat ..).trans (Nat.mod_eq_of_lt hlt)
  obtain ⟨t, ht⟩ := encryptMapsEachCharacter message e (BitVec.ofNat 64 (p.toNat * q.toNat)) s
    fun h0 => hn0 (hn.symm.trans (congrArg BitVec.toNat h0))
  have hcrt : ∀ ch ∈ message,
      crt (BitVec.ofNat 64 (ch.toNat ^ e.toNat % (p.toNat * q.toNat))).toNat d.toNat p.toNat q.toNat = .ok ch.toNat := by
    intro ch hch
    have hfits : ch.toNat ^ e.toNat % (p.toNat * q.toNat) < 2 ^ 64 := (Nat.mod_lt _ (Nat.pos_of_ne_zero hn0)).trans hlt
    rw [BitVec.toNat_ofNat, Nat.mod_eq_of_lt hfits]
    exact crt_of_encrypted hp hq (mt BitVec.eq_of_toNat_eq hne) (fun h => hp2 (BitVec.eq_of_toNat_eq h))
      (fun h => hq2 (BitVec.eq_of_toNat_eq h)) hlt d.isLt hed (hmessage ch hch)
  rw [hn] at ht
  obtain ⟨u, hu⟩ := decrypt_map_eq hcrt t
  exact ⟨t, u, _, ht, hu⟩

/-! ### Results that a host compares with 1 -/

theorem ofNat_eq_one_iff {r : Nat} (h : r < 2 ^ 64) : BitVec.ofNat 64 r = 1#64 ↔ r = 1 := by
  rw [← BitVec.toNat_inj, BitVec.toNat_ofNat, Nat.mod_eq_of_lt h]
  rfl

theorem ofNat_gcd_eq_one_iff (a b : Word) :
    BitVec.ofNat 64 (Nat.gcd a.toNat b.toNat) = 1#64 ↔ Nat.gcd a.toNat b.toNat = 1 :=
  ofNat_eq_one_iff ((gcd_le_max ..).trans_lt (max_lt a.isLt b.isLt))

/-! ### `samplePrime` (R143) -/

/-- What a value that sampling has returned meets: in range, and just accepted by ISPRIME. -/
structure Accepted (lower upper : Nat) (v : Word) (t : State) : Prop where
  lower_le : lower ≤ v.toNat
  le_upper : v.toNat ≤ upper
  operand  : t.reg 0 = v
  verdict  : t.reg 1 = 1
  two_le   : 2 ≤ v.toNat
  ne_four  : v.toNat ≠ 4

theorem accepted_of_isprime {lower upper : Nat} {v : Word} (hrange : inSampleRange lower upper v = true)
    (h : hostCommand (.isprime 1 0) (s.afterWr 0 v) = .done () t) (hverdict : t.reg 1 = 1) : Accepted lower upper v t := by
  obtain ⟨hlower, hupper⟩ := of_decide_eq_true hrange
  obtain ⟨h2, h4⟩ := two_le_and_ne_four_of_accepted h hverdict
  have hv : (s.afterWr 0 v).src 0 = v.toNat := by simp
  exact ⟨hlower, hupper, (hostCommand_reg_ne h (by decide)).trans (by simp), hverdict, hv ▸ h2, hv ▸ h4⟩

section SamplePrime

variable {maxRetries : Option Nat} {lower upper : Nat} {v : Word} {rest : List Word}

theorem sampleLoop_accepted (candidates : List Word) : ∀ {tries : Nat} {s : State},
    sampleLoop maxRetries lower upper tries candidates s = .done (v, rest) t → Accepted lower upper v t := by
  induction candidates with
  | nil => intro tries s h; cases h
  | cons w candidates ih =>
    intro tries s h
    rw [sampleLoop] at h
    split at h
    case isTrue hrange =>
      rw [hostWr_of_lt (by decide), HostResult.andThen_done] at h
      obtain ⟨⟨⟩, u, hcommand, h⟩ := HostResult.andThen_eq_done h
      split_ifs at h with hverdict
      · injection h with hv ht
        obtain ⟨rfl, -⟩ := Prod.mk.inj hv
        exact ht ▸ accepted_of_isprime hrange hcommand (by simpa using hverdict)
      · exact ih h
    case isFalse => exact ih h

theorem samplePrime_accepted {candidates : List Word}
    (h : samplePrime maxRetries lower upper candidates s = .done (v, rest) t) : Accepted lower upper v t := by
  unfold samplePrime at h
  split at h
  · cases h
  · exact sampleLoop_accepted candidates h

end SamplePrime

/-- Settles O52: an empty range is tested first, and the loop returns only what ISPRIME has accepted. -/
theorem samplePrimeReturnsAnAcceptedValueOfItsRange : Obligations.SamplePrimeReturnsAnAcceptedValueOfItsRange := by
  intro maxRetries lower upper candidates s
  refine ⟨fun hempty => if_pos hempty, fun v rest t h => ?_⟩
  obtain ⟨hlower, hupper, hoperand, hverdict, h2, h4⟩ := samplePrime_accepted h
  exact ⟨hlower, hupper, hoperand, hverdict, h2, h4⟩

/-! ### `generate` (R144 to R146) -/

section Generate

variable {maxRetries : Option Nat} {lower upper minSeparation : Nat} {p v phi : Word} {rest : List Word}

/-- Only an accepted value that is far enough from `p` is returned. -/
theorem sampleSeparated_accepted (fuel : Nat) : ∀ {tries : Nat} {candidates : List Word} {s : State},
    sampleSeparated maxRetries lower upper minSeparation p fuel tries candidates s = .done (v, rest) t →
    Accepted lower upper v t ∧ minSeparation ≤ separation p v := by
  induction fuel with
  | zero => intro tries candidates s h; cases h
  | succ fuel ih =>
    intro tries candidates s h
    rw [sampleSeparated] at h
    obtain ⟨r, u, hsample, h⟩ := HostResult.andThen_eq_done h
    split_ifs at h with hnear
    · exact ih h
    · injection h with hr ht
      subst hr ht
      exact ⟨samplePrime_accepted hsample, not_lt.mp hnear⟩

/-- Only an exponent whose GCD line answered 1 is returned. -/
theorem sampleExponent_coprime (fuel : Nat) : ∀ {tries : Nat} {candidates : List Word} {s : State},
    sampleExponent maxRetries phi fuel tries candidates s = .done (v, rest) t →
    2 ≤ v.toNat ∧ v.toNat ≤ phi.toNat - 1 ∧ Nat.gcd v.toNat phi.toNat = 1 := by
  induction fuel with
  | zero => intro tries candidates s h; cases h
  | succ fuel ih =>
    intro tries candidates s h
    rw [sampleExponent] at h
    obtain ⟨r, u, hsample, h⟩ := HostResult.andThen_eq_done h
    rw [hostWr_of_lt (by decide), HostResult.andThen_done, hostWr_of_lt (by decide), HostResult.andThen_done,
      hostCommand_gcd, HostResult.andThen_done] at h
    split_ifs at h with hgcd
    · injection h with hr
      subst hr
      have haccepted := samplePrime_accepted hsample
      exact ⟨haccepted.two_le, haccepted.le_upper, by simpa [Instr.dest, ofNat_gcd_eq_one_iff] using hgcd⟩
    · exact ih h

end Generate

/-- For a coprime exponent the MODINV line answers the inverse. -/
theorem keyInverse_inverse {e phi d : Word} (h2 : 2 ≤ phi.toNat) (hg : Nat.gcd e.toNat phi.toNat = 1)
    (h : keyInverse e phi s = .done d t) : d.toNat < phi.toNat ∧ e.toNat * d.toNat % phi.toNat = 1 := by
  obtain ⟨r, hr, hlt, hinv⟩ := modinv_ok e.isLt phi.isLt h2 hg
  have hcommand := hostCommand_modinv (s := (s.afterWr 0 e).afterWr 1 phi) (rd := 2) (rs1 := 0) (rs2 := 1) (d := r)
    (by simpa using hr)
  obtain ⟨rfl, -⟩ : BitVec.ofNat 64 r = d ∧ _ := by simpa [keyInverse, hcommand, Instr.dest] using h
  rw [BitVec.toNat_ofNat, Nat.mod_eq_of_lt (hlt.trans phi.isLt)]
  exact ⟨hlt, hinv⟩

theorem ne_of_separation_pos {p q : Word} (h : 1 ≤ separation p q) : p ≠ q := by
  rintro rfl
  simp [separation] at h

/-- Settles O53: each step of `generate` that is done gives its part of the invariant. -/
theorem generatedKeyMeetsTheKeyPairInvariant : Obligations.GeneratedKeyMeetsTheKeyPairInvariant := by
  intro maxRetries lower upper minSeparation candidates s t k hsep h
  rw [generate] at h
  obtain ⟨⟨p, _⟩, _, hp, h⟩ := HostResult.andThen_eq_done h
  obtain ⟨⟨q, _⟩, _, hq, h⟩ := HostResult.andThen_eq_done h
  obtain ⟨n, hn, h⟩ := withInteger_eq_done h
  obtain ⟨phi, hphi, h⟩ := withInteger_eq_done h
  obtain ⟨⟨e, _⟩, _, he, h⟩ := HostResult.andThen_eq_done h
  obtain ⟨d, _, hd, h⟩ := HostResult.andThen_eq_done h
  injection h with hk
  subst hk
  have hpAccepted := samplePrime_accepted hp
  obtain ⟨hqAccepted, hseparated⟩ := sampleSeparated_accepted _ hq
  obtain ⟨he2, hephi, hgcd⟩ := sampleExponent_coprime _ he
  obtain ⟨hdphi, hinv⟩ := keyInverse_inverse (by omega) hgcd hd
  refine ⟨⟨hn, ?_, ?_, ?_, hseparated⟩, ⟨hpAccepted.lower_le, hpAccepted.le_upper⟩,
    ⟨hqAccepted.lower_le, hqAccepted.le_upper⟩, he2, ?_, ?_⟩
  · rw [← hphi]; exact_mod_cast hinv
  · rw [← hphi]; exact hgcd
  · exact ne_of_separation_pos (hsep.trans hseparated)
  · rw [← hphi]
    have hlt : e.toNat < phi.toNat := by omega
    exact Int.le_sub_one_of_lt (Int.ofNat_lt.mpr hlt)
  · rw [← hphi]; exact_mod_cast hdphi

/-! ### The tests of a key (R147) -/

/-- Settles O54: with `φ ≥ 1` the MODMUL line raises no fault, and the two results are words. -/
theorem keyTestsAnswerTheThreeConditions : Obligations.KeyTestsAnswerTheThreeConditions := by
  intro k s hpos hfits
  obtain ⟨phi, hphi, hrun⟩ := withInteger_of_fits (s := s) (α := Bool) hpos.le hfits
  have hphi0 : phi.toNat ≠ 0 := by omega
  have hmodmul := hostCommand_modmul
    (s := (((s.afterWr 0 k.e).afterWr 1 phi).afterCommand (.gcd 2 0 1) (Nat.gcd k.e.toNat phi.toNat)).afterWr 4 k.d)
    (rd := 3) (rs1 := 0) (rs2 := 4) (rs3 := 1) (by simpa [Instr.dest] using hphi0)
  have hlt : k.e.toNat * k.d.toNat % phi.toNat < 2 ^ 64 := (Nat.mod_lt _ (Nat.pos_of_ne_zero hphi0)).trans phi.isLt
  have hinverse : ((k.e.toNat : Int) * k.d.toNat) % phi.toNat = 1 ↔ k.e.toNat * k.d.toNat % phi.toNat = 1 := by
    norm_cast
  rw [keyTests, hrun, ← hphi, hinverse, Int.gcd_natCast_natCast]
  simp [hmodmul, Instr.dest, ofNat_gcd_eq_one_iff, ofNat_eq_one_iff hlt, and_assoc]

end Sys2Proof.Machine
end

section
/-! PROOFS. The statements of `60_exceptions.md`: what a fault writes, how every command ends, and the idle step. -/

namespace Sys2Proof.Machine

variable {s t : State}

/-! ### Taking a fault (R162) -/

/-- Of the two ways a command ends, only a fault leaves `STATUS.ERR` non-zero, and it writes nothing else of the block. -/
theorem Ended.block_eq_of_err_ne_zero {causes : List Cause} {rd : Reg} {writesChar : Prop}
    (h : Ended causes rd writesChar s t) (herr : t.block.err ≠ 0) :
    ∃ c ∈ causes, t.block = { s.block with err := c.code } := by
  cases h with
  | faulted c mem eq => exact ⟨c, mem, eq⟩
  | completed v c char eq => exact absurd (congrArg Block.err eq) herr

theorem execute_block_eq_of_err_ne_zero {v : Word} (h : execute v s = .next t) (herr : t.block.err ≠ 0) :
    ∃ c : Cause, t.block = { s.block with err := c.code } := by
  obtain ⟨e, -, rfl⟩ | ⟨i, -, hi⟩ := execute_next h
  · exact ⟨.illegalCommand, rfl⟩
  · obtain ⟨c, -, hblock⟩ := (exec_next hi).1.block_eq_of_err_ne_zero herr
    exact ⟨c, hblock⟩

theorem execute_host_eq {v : Word} (h : execute v s = .next t) : t.host = s.host := by
  obtain ⟨e, -, rfl⟩ | ⟨i, -, hi⟩ := execute_next h
  · rfl
  · exact (exec_next hi).2.1

/-- Settles O33: the value runs at the state that holds it, its fault writes `STATUS.ERR`, and the reply comes after. -/
theorem faultWritesOnlyStatus : Obligations.FaultWritesOnlyStatus := by
  intro v s t h herr
  obtain ⟨u, hu, rfl⟩ := hostWrite_cmd_next h
  have hblock : ∃ c : Cause, u.block = { s.block with cmd := v, err := c.code } :=
    execute_block_eq_of_err_ne_zero hu herr
  have hhost : u.host = (s.setCmd v).host := execute_host_eq hu
  obtain ⟨ds, hdraws, -⟩ := execute_extends hu
  exact ⟨hblock, ⟨ds, hdraws⟩, by rw [State.reply_host, hhost, State.setCmd_host]⟩

/-! ### Every command ends -/

/-- Settles O35: an answering source lets every command end, and each end leaves 0 or one of the command's causes. -/
theorem everyCommandEndsWithItsOwnCodes : Obligations.EveryCommandEndsWithItsOwnCodes := by
  intro i s hs
  obtain ⟨t, ht, hanswers⟩ := exec_answers (i := i) hs
  exact ⟨t, ht, hanswers, (exec_next ht).1.err_cases⟩

/-! ### The idle step -/

/-- Settles O8: with no event to deliver the step is its first branch (R175, R191; log 7). -/
theorem idleStepHoldsState : Obligations.IdleStepHoldsState := by
  intro s h
  rw [step, deliverNext, h]

end Sys2Proof.Machine
end

section
/-! PROOFS. The statements of `70_reset_and_hazards.md`: the bounds of the loops, a draw that is never answered, and reset. -/

namespace Sys2Proof.Machine

variable {s : State}

/-! ### The loops end within their bounds (R199) -/

/-- MODEXP's loop ends at exponent 0, however many iterations it may still make (R81). -/
@[simp] theorem modexpLoop_exponent_zero (m fuel r b : Nat) : modexpLoop m fuel r b 0 = r := by
  cases fuel <;> rfl

/-- An exponent below `2^fuel` is used up within `fuel` iterations, for any modulus and any start (R86). -/
theorem modexpLoop_add {m : Nat} (k fuel : Nat) : ∀ {r b e : Nat}, e < 2 ^ fuel →
    modexpLoop m (fuel + k) r b e = modexpLoop m fuel r b e := by
  induction fuel with
  | zero =>
    intro r b e he
    obtain rfl : e = 0 := Nat.lt_one_iff.mp he
    simp
  | succ fuel ih =>
    intro r b e he
    have hhalf : e / 2 < 2 ^ fuel := Nat.div_lt_of_lt_mul (by rwa [pow_succ'] at he)
    rw [Nat.succ_add, modexpLoop, modexpLoop, ih hhalf]

/-- MODINV's loop ends at divisor 0, however many iterations it may still make (R94). -/
@[simp] theorem modinvLoop_divisor_zero (fuel r0 : Nat) (s0 s1 : Int) : modinvLoop fuel r0 0 s0 s1 = (r0, s0) := by
  cases fuel <;> rfl

theorem modinvLoop_succ {r1 : Nat} (h : r1 ≠ 0) (fuel r0 : Nat) (s0 s1 : Int) :
    modinvLoop (fuel + 1) r0 r1 s0 s1 = modinvLoop fuel r1 (r0 % r1) s1 (s0 - (r0 / r1 : Nat) * s1) := if_neg h

/-- An iteration on an ordered pair at least halves the product of the two remainders. -/
theorem two_mul_mul_mod_le {a b : Nat} (hb : 0 < b) (hle : b ≤ a) : 2 * (b * (a % b)) ≤ a * b := by
  have hrem : a % b < b := Nat.mod_lt a hb
  have hquot : b ≤ b * (a / b) := Nat.le_mul_of_pos_right b (Nat.div_pos hle hb)
  have hdiv : b * (a / b) + a % b = a := Nat.div_add_mod a b
  calc 2 * (b * (a % b)) = b * (2 * (a % b)) := by ring
    _ ≤ b * a := Nat.mul_le_mul_left b (by omega)
    _ = a * b := Nat.mul_comm b a

/-- From an ordered pair the divisor is 0 within `fuel + 1` iterations once the product is below `2^fuel`. -/
theorem modinvLoop_add_of_le (k fuel : Nat) : ∀ {r0 r1 : Nat} {s0 s1 : Int}, r1 ≤ r0 → r0 * r1 < 2 ^ fuel →
    modinvLoop (fuel + 1 + k) r0 r1 s0 s1 = modinvLoop (fuel + 1) r0 r1 s0 s1 := by
  induction fuel with
  | zero =>
    intro r0 r1 s0 s1 hle h
    obtain rfl : r1 = 0 := by
      by_contra hne
      have := Nat.mul_pos (show 0 < r0 by omega) (show 0 < r1 by omega)
      omega
    simp
  | succ fuel ih =>
    intro r0 r1 s0 s1 hle h
    rcases Nat.eq_zero_or_pos r1 with rfl | hpos
    · simp
    · have hhalf : r1 * (r0 % r1) < 2 ^ fuel := by
        have := two_mul_mul_mod_le hpos hle
        rw [pow_succ] at h
        omega
      rw [Nat.succ_add, modinvLoop_succ hpos.ne', modinvLoop_succ hpos.ne', ih (Nat.mod_lt r0 hpos).le hhalf]

/-- One iteration more orders any pair (R91); it does not enlarge the product. -/
theorem modinvLoop_add (k fuel : Nat) {r0 r1 : Nat} {s0 s1 : Int} (h : r0 * r1 < 2 ^ fuel) :
    modinvLoop (fuel + 2 + k) r0 r1 s0 s1 = modinvLoop (fuel + 2) r0 r1 s0 s1 := by
  rcases Nat.eq_zero_or_pos r1 with rfl | hpos
  · simp
  · have hprod : r1 * (r0 % r1) < 2 ^ fuel := calc
      r1 * (r0 % r1) ≤ r1 * r0 := Nat.mul_le_mul_left r1 (Nat.mod_le r0 r1)
      _ = r0 * r1 := Nat.mul_comm r1 r0
      _ < 2 ^ fuel := h
    rw [Nat.succ_add, modinvLoop_succ hpos.ne', modinvLoop_succ hpos.ne',
      modinvLoop_add_of_le k fuel (Nat.mod_lt r0 hpos).le hprod]

theorem mul_lt_two_pow_128 {a b : Nat} (ha : a < 2 ^ 64) (hb : b < 2 ^ 64) : a * b < 2 ^ 128 :=
  lt_of_lt_of_eq (Nat.mul_lt_mul'' ha hb) (by norm_num)

/-- Settles O17: the exponent loses a bit an iteration; the product of two `u64` remainders is below `2^128` and halves each
iteration after the first. GCD's loop is the remainder part of MODINV's. -/
theorem loopsEndWithinTheirBounds : Obligations.LoopsEndWithinTheirBounds := by
  have hinv (a m k : Nat) (s0 s1 : Int) (ha : a < 2 ^ 64) (hm : m < 2 ^ 64) :
      modinvLoop (130 + k) a m s0 s1 = modinvLoop 130 a m s0 s1 :=
    modinvLoop_add k 128 (mul_lt_two_pow_128 ha hm)
  refine ⟨fun m r b e k he => modexpLoop_add k 64 he, fun a b k ha hb => ?_, hinv⟩
  rw [← modinvLoop_fst (130 + k) a b 1 0, ← modinvLoop_fst 130 a b 1 0, hinv a b k 1 0 ha hb]

/-! ### A draw that is never answered (R199, E3) -/

/-- A round whose draw is not answered leaves the test waiting. -/
theorem fermatRounds_silence (n rounds : Nat) (rest : List Answer) (ds : List Draw) :
    (fermatRounds n (rounds + 1) ⟨.silence :: rest, ds⟩).1 = .unanswered := rfl

theorem finishFermat_unanswered {r : FermatEnd × RandomPort} (h : r.1 = .unanswered) (rd : Reg) :
    finishFermat rd s r = .fault .drawUnanswered := by
  obtain ⟨e, p⟩ := r
  subst h
  rfl

/-- Settles O23: the good answers use up fewer rounds than there are, and the next round gets the silence. -/
theorem isprimeUnansweredDrawHangs : Obligations.IsprimeUnansweredDrawHangs := by
  intro rd rs1 s good rest h5 hscript hlt hgood
  obtain ⟨left, hleft⟩ : ∃ left, s.roundCount = good.length + (left + 1) := ⟨s.roundCount - good.length - 1, by omega⟩
  rw [exec_isprime, hleft, fermat_good h5 hscript hgood]
  exact finishFermat_unanswered (fermatRounds_silence ..) rd

/-! ### Reset (R191) -/

/-- Settles O44: the delivery of the reset replaces the block and nothing else. -/
theorem resetMapsEveryStateToTheResetState : Obligations.ResetMapsEveryStateToTheResetState :=
  fun _ _ h => step_of_inbox h

theorem drawsMadeBy_of_illegal {v : Word} {e : Illegal} (h : decode v = .error e) (made : Nat) (s : State) :
    drawsMadeBy v made s = s.random := by
  rw [drawsMadeBy, h]

theorem drawsMadeBy_isprime {v : Word} {rd rs1 : Reg} (h : decode v = .ok (.isprime rd rs1)) (made : Nat) (s : State) :
    drawsMadeBy v made s = (fermat (s.src rs1) (min made s.roundCount) s.random).2 := by
  rw [drawsMadeBy, h]

theorem eq_isprime_of_mnemonic {i : Instr} (h : i.mnemonic = "ISPRIME") : ∃ rd rs1, i = .isprime rd rs1 := by
  cases i with
  | isprime rd rs1 => exact ⟨rd, rs1, rfl⟩
  | _ => simp [Instr.mnemonic] at h

/-- Only ISPRIME draws (R40). -/
theorem drawsMadeBy_of_mnemonic_ne {v : Word} {i : Instr} (h : decode v = .ok i) (hi : i.mnemonic ≠ "ISPRIME")
    (made : Nat) (s : State) : drawsMadeBy v made s = s.random := by
  rw [drawsMadeBy, h]
  cases i with
  | isprime rd rs1 => exact absurd rfl hi
  | _ => rfl

/-- A value written to `CMD` has one list of draws: a reset after `made` draws keeps its first `made`, and a run that ends has
made all of it (R117, R191). -/
theorem exists_draws_of_value (v : Word) (s : State) : ∃ ds : List Draw,
    (∀ made, (drawsMadeBy v made s).draws = s.random.draws ++ ds.take made) ∧
    ∀ u, execute v s = .next u → u.random.draws = s.random.draws ++ ds := by
  cases hv : decode v with
  | error e =>
    refine ⟨[], fun made => by simp [drawsMadeBy_of_illegal hv], fun u hu => ?_⟩
    obtain ⟨-, -, rfl⟩ | ⟨i, hi, -⟩ := execute_next hu
    · simp
    · exact nomatch hv.symm.trans hi
  | ok i =>
    rw [execute_of_decode hv]
    by_cases hi : i.mnemonic = "ISPRIME"
    · obtain ⟨rd, rs1, rfl⟩ := eq_isprime_of_mnemonic hi
      obtain ⟨ds, hall, -, -, hfirst⟩ := fermat_draws (s.src rs1) s.roundCount s.random
      refine ⟨ds, fun made => by rw [drawsMadeBy_isprime hv, hfirst], fun u hu => ?_⟩
      obtain ⟨-, -, -, hrandom⟩ := exec_next hu
      rw [hrandom rd rs1 rfl, hall]
    · refine ⟨[], fun made => by simp [drawsMadeBy_of_mnemonic_ne hv hi], fun u hu => ?_⟩
      obtain ⟨-, -, hrandom, -⟩ := exec_next hu
      simp [hrandom hi]

/-- The pending events are no input of a command's draws. -/
theorem drawsMadeBy_setInbox (v : Word) (made : Nat) (es : List Event) (s : State) :
    drawsMadeBy v made (s.setInbox es) = drawsMadeBy v made s := rfl

/-- Settles O45: the port keeps the first `made` of the command's own draws, after those made before it. -/
theorem resetDuringCommandKeepsItsDraws : Obligations.ResetDuringCommandKeepsItsDraws := by
  intro s v made es h
  obtain ⟨ds, hmade, hall⟩ := exists_draws_of_value v s
  have hport : (drawsMadeBy v made (s.setInbox es)).draws = s.random.draws ++ ds.take made :=
    (congrArg RandomPort.draws (drawsMadeBy_setInbox v made es s)).trans (hmade made)
  refine ⟨_, step_of_inbox h, rfl, rfl, ⟨ds.take made, hport, List.length_take_le made ds⟩, fun u hu => ?_⟩
  rw [hall u hu, List.take_length_add_append]
  exact hport

end Sys2Proof.Machine
end
